-- ==== Sys2Proof/Word.lean ====
section
/-! DEFINITION. The word types of the macro engine core. -/

namespace Sys2Proof

/-- A 32-bit word: registers, instruction words, parameters, method arguments (00_scope.md R8). -/
abbrev Word := BitVec 32

/-- A register index, a 3-bit field of the instruction word (10_state.md R20). -/
abbrev RegIdx := BitVec 3

/-- A 5-bit field: `alu_op`, `bf_src_bit`, `bf_size`, `bf_dst_bit` (30_encoding.md R71). -/
abbrev Field5 := BitVec 5

/-- The 18-bit immediate field `w[31:14]`, before sign extension (30_encoding.md R77). -/
abbrev Imm18 := BitVec 18

end Sys2Proof
end

