-- ==== Sys2Proof/Config.lean ====
section
/-! DEFINITION. The implementation parameters of 00_scope.md R8, and the free values. -/

namespace Sys2Proof

/-- `SUB_CARRY_MODE` (00_scope.md R8, 41_alu.md R123): what carry = 1 means after SUB and SBB. -/
inductive SubCarryMode where
  | borrow
  | notBorrow
  deriving DecidableEq, Repr

/-- `UNKNOWN_ALU_MODE` (00_scope.md R8, 41_alu.md R130): what an unrecognised ALU code does. -/
inductive UnknownAluMode where
  | nop
  | resultZero
  deriving DecidableEq, Repr

/-- `LARGE_SHIFT_MODE` (00_scope.md R8, 42_immediate_bitfield.md R145): a register shift by 32 or more. -/
inductive LargeShiftMode where
  | draw
  | mod32
  deriving DecidableEq, Repr

/-- The parameters the spec leaves to the implementation (00_scope.md R8). They are inputs of an
invocation (10_state.md R29): plain data that `State` holds and no step changes, so that every
statement is one for all their values (log 3, log 4). -/
structure Config where
  /-- `NUM_GPU_REGS`, a positive number; only READ's range check reads it (20_memory.md R47). -/
  numGpuRegs : Nat
  /-- `SUB_CARRY_MODE`. -/
  subCarry : SubCarryMode
  /-- `UNKNOWN_ALU_MODE`. -/
  unknownAlu : UnknownAluMode
  /-- `LARGE_SHIFT_MODE`. -/
  largeShift : LargeShiftMode
  deriving DecidableEq, Repr

/-- FREE VALUE (safe; log 5, log 6): the `n`-th 32-bit value the environment supplies: a register-bank
answer the host did not supply (20_memory.md R46, D10) or a shift draw
(42_immediate_bitfield.md R145, D8). -/
opaque Config.freeWord : Nat → Word

/-- FREE VALUE (safe; log 8): the `n`-th choice among several matching keys of the code store
(20_memory.md R42, D17). -/
opaque Config.freePick : Nat → Nat

end Sys2Proof
end

