-- ==== Sys2Proof/Syntax.lean ====
section
/-! DEFINITION. The instruction set: one constructor per row of spec/opcode_table.json. -/

namespace Sys2Proof

/-- The 8 result operations (30_encoding.md R74); their meanings are 45_result_ops.md R181 to R188. -/
inductive ResultOp where
  | ignoreFetch
  | move
  | moveSetMethod
  | fetchSend
  | moveSend
  | fetchSetMethod
  | moveSetMethodFetchSend
  | moveSetMethodSend
  deriving DecidableEq, Repr

/-- A decoded instruction: the fields its operation reads (30_encoding.md R72), and no others.

The five rows that log a diagnostic (`RSVD` and the four groups of ALU codes that name no function)
also carry the fetched word `w`, because their `diag(base, w)` event records it whole
(40_sequencer.md R109, 41_alu.md R130; log 14). `Instr.wf` says that `w` agrees with the fields. -/
inductive Instr where
  /-- ADD (R121). -/
  | add (rop : ResultOp) (isExit : Bool) (dst srcA srcB : RegIdx)
  /-- ADC (R122). -/
  | adc (rop : ResultOp) (isExit : Bool) (dst srcA srcB : RegIdx)
  /-- SUB (R123). -/
  | sub (rop : ResultOp) (isExit : Bool) (dst srcA srcB : RegIdx)
  /-- SBB (R124). -/
  | sbb (rop : ResultOp) (isExit : Bool) (dst srcA srcB : RegIdx)
  /-- XOR (R125). -/
  | xor (rop : ResultOp) (isExit : Bool) (dst srcA srcB : RegIdx)
  /-- OR (R126). -/
  | or (rop : ResultOp) (isExit : Bool) (dst srcA srcB : RegIdx)
  /-- AND (R127). -/
  | and (rop : ResultOp) (isExit : Bool) (dst srcA srcB : RegIdx)
  /-- ANDNOT (R128). -/
  | andnot (rop : ResultOp) (isExit : Bool) (dst srcA srcB : RegIdx)
  /-- NAND (R129). -/
  | nand (rop : ResultOp) (isExit : Bool) (dst srcA srcB : RegIdx)
  /-- ALU codes 4 to 7 (R130). -/
  | aluReserved47 (rop : ResultOp) (isExit : Bool) (dst : RegIdx) (w : Word)
  /-- ALU code 13 (R130). -/
  | aluUnrecognised13 (rop : ResultOp) (isExit : Bool) (dst : RegIdx) (w : Word)
  /-- ALU codes 14 and 15 (R130). -/
  | aluUnrecognised1415 (rop : ResultOp) (isExit : Bool) (dst : RegIdx) (w : Word)
  /-- ALU codes 16 to 31 (R130). -/
  | aluUnrecognised1631 (rop : ResultOp) (isExit : Bool) (dst : RegIdx) (w : Word)
  /-- ADD_IMM (R140). -/
  | addi (rop : ResultOp) (isExit : Bool) (dst srcA : RegIdx) (imm : Imm18)
  /-- EXTRACT_INSERT (R142). -/
  | extins (rop : ResultOp) (isExit : Bool) (dst srcA srcB : RegIdx) (srcBit size dstBit : Field5)
  /-- EXTRACT_SHL_IMM (R143). -/
  | extshli (rop : ResultOp) (isExit : Bool) (dst srcA srcB : RegIdx) (size dstBit : Field5)
  /-- EXTRACT_SHL_REG (R144). -/
  | extshlr (rop : ResultOp) (isExit : Bool) (dst srcA srcB : RegIdx) (srcBit size : Field5)
  /-- READ (R160). -/
  | read (rop : ResultOp) (isExit : Bool) (dst srcA : RegIdx) (imm : Imm18)
  /-- RESERVED (R109). -/
  | rsvd (isExit : Bool) (w : Word)
  /-- BRANCH with `branch_cond` = ZERO (R170). -/
  | bz (annul : Bool) (srcA : RegIdx) (imm : Imm18)
  /-- BRANCH with `branch_cond` = NONZERO (R170). -/
  | bnz (annul : Bool) (srcA : RegIdx) (imm : Imm18)
  deriving DecidableEq, Repr

end Sys2Proof
end

