-- ==== Sys2Proof/Machine/State.lean ====
section
/-! DEFINITION. The machine's state (10_state.md R20 to R32), the reasons a step can stop, and reset. -/

namespace Sys2Proof.Machine

/-- The code store (20_memory.md R41): the words uploaded so far for each entry-method id, as pairs
with strictly rising ids (`Memory.wf`). An unlisted id has no vector. It is the only memory the core
has, and no instruction reaches it as data (R40). Its unit is the 32-bit word: no space is
byte-addressed and byte order is not observable (R50; log 9). -/
abbrev Memory := List (Nat × List Word)

/-- An event of the trace (20_memory.md R49). -/
inductive Event where
  /-- `call(m, v)`: a method call with the zero-extended method id (R48). -/
  | call (method arg : Word)
  /-- `read(i, v)`: a register-bank read and the value returned (R46). -/
  | read (index value : Word)
  /-- `diag(pc, w)`: a diagnostic for an unrecognised operation or ALU code (60_exceptions.md R213). -/
  | diag (offset word : Word)
  deriving DecidableEq, Repr

/-- The error kinds with the `info` each records (60_exceptions.md R201). -/
inductive ErrorKind where
  /-- No body for the entry id (R202). -/
  | unknownMacro (entryId : Nat)
  /-- READ outside the register space, with the index (R205). -/
  | registerOutOfRange (index : Word)
  /-- A BRANCH in a delay slot, with its offset (R204). -/
  | badDelaySlot (base : Word)
  /-- A fetch of a parameter with none left, with the cursor (R206, R208). -/
  | parameterUnderflow (cursor : Nat)
  /-- The end of a run with parameters left, with the cursor (R207). -/
  | parameterLeftover (cursor : Nat)
  /-- Never raised by the core (R221). -/
  | jitBufferExhausted
  /-- A fetch outside the body, with the offset (R203). -/
  | fetchOutOfRange (pc : Word)
  deriving DecidableEq, Repr

/-- What the next instruction is the delay slot of (10_state.md R27). -/
inductive Slot where
  | none
  | branchDelay (target : Word)
  | exitDelay
  deriving DecidableEq, Repr

/-- The invocation's status (10_state.md R28). -/
inductive Status where
  | running
  | done
  | error (kind : ErrorKind)
  deriving DecidableEq, Repr

/-- The machine: the architectural state of one invocation, its trace, the inputs it runs from, and
the engine's code store. -/
structure State where
  /-- The implementation parameters (00_scope.md R8); no step changes them. -/
  cfg : Config
  /-- The code store (20_memory.md R41). -/
  memory : Memory
  /-- The macro body of this invocation (20_memory.md R41, R44). -/
  body : List Word
  /-- The parameter words (10_state.md R26). -/
  params : List Word
  /-- The register bank's answers the host supplies, in order (20_memory.md R46, D10; log 5). -/
  answers : List Word
  /-- THE MODEL'S OWN: how many free values have been taken so far (log 7). -/
  draws : Nat
  /-- The stored array `X` (10_state.md R20); `x[0]` is read and written through `State.reg` and
  `State.setReg` only. -/
  x : Vector Word 8
  /-- The byte offset of the next instruction (10_state.md R23). -/
  pc : Word
  /-- The carry flag (10_state.md R24). -/
  carry : Bool
  /-- The method-address register (10_state.md R25). -/
  maddr : Word
  /-- The parameter cursor (10_state.md R26). -/
  cursor : Nat
  /-- The pending delay slot (10_state.md R27). -/
  slot : Slot
  /-- The status (10_state.md R28). -/
  status : Status
  /-- The events issued so far, oldest first (20_memory.md R49). -/
  trace : List Event
  deriving DecidableEq, Repr

/-- The reasons a step stops the machine. No instruction raises one: the spec's errors are next states
(60_exceptions.md R200). -/
inductive Fault where
  /-- Raised by `step` alone, when the invocation has ended (`DONE` or `ERROR`): "Only a `RUNNING`
  core executes instructions" (10_state.md R28). Safe: the machine stops (log 10). -/
  | notRunning
  deriving DecidableEq, Repr

/-- The reasons a step has no meaning. -/
inductive Refusal where
  /-- An instruction with no meaning yet, by mnemonic. Raised by no arm of `exec`. Safe. -/
  | notModelled (mnemonic : String)
  deriving DecidableEq, Repr

/-- The configuration at reset: the spec's default modes (00_scope.md R8; log 4) and, for the open
`NUM_GPU_REGS`, the test value of 95_test_vectors.md (DESIGN CHOICE, unsafe; log 3). -/
def resetConfig : Config :=
  { numGpuRegs := 0x1000, subCarry := .borrow, unknownAlu := .nop, largeShift := .draw }

/-- The machine right after reset. "The start of an invocation is the core's reset" (R230): every
field has the value of 10_state.md R32. The inputs the host has not supplied are an empty body, the
smallest legal parameter vector `[0]` and no answers (DESIGN CHOICE, unsafe; log 2); the code store is
empty (70_reset_and_hazards.md R232). -/
def State.reset : State :=
  { cfg := resetConfig
    memory := []
    body := []
    params := [0#32]
    answers := []
    draws := 0
    x := Vector.replicate 8 0#32
    pc := 0#32
    carry := false
    maddr := 0#32
    cursor := 1
    slot := .none
    status := .running
    trace := [] }

end Sys2Proof.Machine
end

