-- ==== Sys2Proof/Machine/Flags.lean ====
section
/-! DEFINITION. The arithmetic of the ALU and its one flag, `carry` (41_alu.md R121 to R124, R131):
each function computes exactly in the integers and narrows at the end. -/

namespace Sys2Proof.Machine

/-- The exact sum of ADD and ADC, `uint(a) + uint(b) + cin`. -/
def exactSum (a b : Word) (cin : Bool) : Nat := a.toNat + b.toNat + cin.toNat

/-- The carry-out of ADD and ADC: unsigned overflow of the exact sum. -/
def sumCarry (sum : Nat) : Bool := decide (2 ^ 32 ≤ sum)

/-- The exact difference of SUB and SBB, `uint(a) - uint(b) - k`. -/
def exactDiff (a b : Word) (k : Bool) : Int := (a.toNat : Int) - (b.toNat : Int) - (k.toNat : Int)

/-- The carry SUB and SBB leave (R123, R124), by `SUB_CARRY_MODE`. -/
def diffCarry (mode : SubCarryMode) (diff : Int) : Bool :=
  match mode with
  | .borrow => decide (diff < 0)
  | .notBorrow => decide (0 ≤ diff)

/-- The borrow SBB takes in from `carry` (R124), by `SUB_CARRY_MODE`. -/
def borrowIn (mode : SubCarryMode) (carry : Bool) : Bool :=
  match mode with
  | .borrow => carry
  | .notBorrow => !carry

/-- Value and carry-out of ADD (R121). -/
def aluAdd (a b : Word) : Word × Bool :=
  (BitVec.ofNat 32 (exactSum a b false), sumCarry (exactSum a b false))

/-- Value and carry-out of ADC (R122). -/
def aluAdc (a b : Word) (cin : Bool) : Word × Bool :=
  (BitVec.ofNat 32 (exactSum a b cin), sumCarry (exactSum a b cin))

/-- Value and carry-out of SUB (R123). -/
def aluSub (mode : SubCarryMode) (a b : Word) : Word × Bool :=
  (BitVec.ofInt 32 (exactDiff a b false), diffCarry mode (exactDiff a b false))

/-- Value and carry-out of SBB (R124). -/
def aluSbb (mode : SubCarryMode) (a b : Word) (cin : Bool) : Word × Bool :=
  (BitVec.ofInt 32 (exactDiff a b (borrowIn mode cin)),
    diffCarry mode (exactDiff a b (borrowIn mode cin)))

end Sys2Proof.Machine
end

