-- ==== Sys2Proof/Machine/Operands.lean ====
section
/-! DEFINITION. Operand forms: immediates, bit-field masks and values, branch conditions and targets,
and the fields of the method-address register. -/

namespace Sys2Proof.Machine

/-- `sext_18(w[31:14])` (30_encoding.md R77). -/
def sext18 (imm : Imm18) : Word := imm.signExtend 32

/-- `branch_target`: `base + sext_18(imm) * 4` modulo 2^32 (30_encoding.md R78, 44_branch.md R174). -/
def branchTarget (base : Word) (imm : Imm18) : Word := base + sext18 imm * 4#32

/-- `bitfield_mask(size) = 2^size - 1` (30_encoding.md R79, 42_immediate_bitfield.md R141). -/
def bitfieldMask (size : Field5) : Word := BitVec.ofNat 32 (2 ^ size.toNat - 1)

/-- The value of EXTRACT_INSERT (R142): `a` with the field of `b` placed at `dstBit`. -/
def insertField (a b : Word) (srcBit size dstBit : Field5) : Word :=
  let field := (b >>> srcBit.toNat) &&& bitfieldMask size
  let keep := a &&& ~~~(bitfieldMask size <<< dstBit.toNat)
  keep ||| (field <<< dstBit.toNat)

/-- `((b >> right) & mask) << left`, the value EXTRACT_SHL_IMM and EXTRACT_SHL_REG share (R143, R144). -/
def extractShift (b : Word) (right : Nat) (size : Field5) (left : Nat) : Word :=
  ((b >>> right) &&& bitfieldMask size) <<< left

/-- `cond_hit` (44_branch.md R170) for the branch's `branch_cond` bit: false is ZERO, true NONZERO. -/
def condHit (nonzero : Bool) (v : Word) : Bool := (v == 0#32) == !nonzero

/-- `maddr[11:0]` (10_state.md R25). -/
def methodAddress (m : Word) : BitVec 12 := m.extractLsb' 0 12

/-- `maddr[17:12]` (10_state.md R25). -/
def methodIncrement (m : Word) : BitVec 6 := m.extractLsb' 12 6

/-- `maddr` after a send: `address <- (address + increment) mod 2^12`, bits 31:12 unchanged
(45_result_ops.md R189). -/
def advanceMethod (m : Word) : Word :=
  m.extractLsb' 12 20 ++ (methodAddress m + (methodIncrement m).setWidth 12)

end Sys2Proof.Machine
end

