-- ==== Sys2Proof/Machine/Ops.lean ====
section
/-! DEFINITION. The named operations over the state: registers, trace, code store, fetch, parameters,
the register bank, Send, the result operations, raising an error, and the end of an instruction. -/

namespace Sys2Proof.Machine

/-! ## Registers, flag, trace (10_state.md R20, R24, 20_memory.md R49) -/

/-- `x[i]`: register 0 always reads 0. -/
def State.reg (s : State) (i : RegIdx) : Word :=
  if i = 0#3 then 0#32 else s.x[i.toNat]'(i.isLt)

/-- The register array after `x[i] <- v`: a write to register 0 is discarded. -/
def writeReg (x : Vector Word 8) (i : RegIdx) (v : Word) : Vector Word 8 :=
  if i = 0#3 then x else x.set i.toNat v i.isLt

/-- `x[i] <- v`. -/
def State.setReg (s : State) (i : RegIdx) (v : Word) : State := { s with x := writeReg s.x i v }

/-- `carry <- c`, or carry unchanged. -/
def State.setCarry (s : State) (c : Option Bool) : State := { s with carry := c.getD s.carry }

/-- `maddr <- v`: all 32 bits. -/
def State.setMaddr (s : State) (v : Word) : State := { s with maddr := v }

/-- Append one event to the trace. -/
def State.emit (s : State) (e : Event) : State := { s with trace := s.trace ++ [e] }

/-! ## The code store (20_memory.md R41, R42) -/

/-- The canonical form: strictly rising ids. -/
abbrev Memory.wf (m : Memory) : Prop := (m.map Prod.fst).Pairwise (· < ·)

/-- The vector uploaded for an id, if the id is a key. -/
def Memory.vec (m : Memory) (id : Nat) : Option (List Word) := m.lookup id

/-- `append(method_id, word)`: push one word onto the vector keyed by `id` (R41). -/
def Memory.append (m : Memory) (id : Nat) (w : Word) : Memory :=
  match m with
  | [] => [(id, [w])]
  | (k, v) :: rest =>
    if id < k then (id, [w]) :: (k, v) :: rest
    else if id = k then (k, v ++ [w]) :: rest
    else (k, v) :: Memory.append rest id w

/-- The tail a key offers an entry id: `entry_id > k ∧ entry_id − k < len(vec_k)` (R41). -/
def tailFor (entry : Nat) (kv : Nat × List Word) : Option (List Word) :=
  if kv.1 < entry ∧ entry - kv.1 < kv.2.length then some (kv.2.drop (entry - kv.1)) else none

/-- The bodies `body_for(entry)` may return: the vector of the id itself, else the tail of any
matching key (R41, R42). None is the fatal lookup of 60_exceptions.md R202. -/
def Memory.bodies (m : Memory) (entry : Nat) : List (List Word) :=
  match m.vec entry with
  | some v => [v]
  | none => m.filterMap (tailFor entry)

/-- The one of several bodies that `body_for` returns: a free choice (R42, D17; log 8). -/
def pickBody (draws : Nat) (first : List Word) (others : List (List Word)) : List Word :=
  if others = [] then first
  else (first :: others).getD (Config.freePick draws % (others.length + 1)) first

/-! ## Fetch (20_memory.md R43) -/

/-- `Fetch(pc)`: word `pc >> 2` of the body, or FETCH_OUT_OF_RANGE where the body has no such word, which
is where `pc >= 4 * N`. -/
def fetch (s : State) : Except ErrorKind Word :=
  match s.body[s.pc.toNat / 4]? with
  | some w => .ok w
  | none => .error (.fetchOutOfRange s.pc)

/-! ## Raising an error (60_exceptions.md R200, R201, R210) -/

/-- `raise E(info)`, the one way an error is taken. `s` is the state the step began in and `t` the state
when the error arises: `status` becomes `ERROR`, the trace keeps what the step has issued, and nothing
else of the core changes (R210). The answers and free values the step has already taken stay taken
(log 11). -/
def raise (e : ErrorKind) (s t : State) : State :=
  { s with status := .error e, trace := t.trace, answers := t.answers, draws := t.draws }

/-- The spec's number for an error kind (R201, D34). -/
def ErrorKind.code : ErrorKind → Nat
  | .unknownMacro _ => 0
  | .registerOutOfRange _ => 1
  | .badDelaySlot _ => 2
  | .parameterUnderflow _ => 3
  | .parameterLeftover _ => 4
  | .jitBufferExhausted => 5
  | .fetchOutOfRange _ => 6

/-! ## Free values -/

/-- `SHIFT_DRAW()` (42_immediate_bitfield.md R145): any 32-bit value. -/
def shiftDraw (s : State) : Word × State :=
  (Config.freeWord s.draws, { s with draws := s.draws + 1 })

/-- The register bank's answer to the next read: the host's where it supplied one, else any value
(20_memory.md R46, D10; log 5). -/
def bankAnswer (s : State) : Word × State :=
  match s.answers with
  | v :: rest => (v, { s with answers := rest })
  | [] => (Config.freeWord s.draws, { s with draws := s.draws + 1 })

/-! ## Parameters, the register bank, Send -/

/-- `NextParam()` (20_memory.md R45). -/
def nextParam (s : State) : Except ErrorKind (Word × State) :=
  match s.params[s.cursor]? with
  | some p => .ok (p, { s with cursor := s.cursor + 1 })
  | none => .error (.parameterUnderflow s.cursor)

/-- `BankRead(i)` (20_memory.md R46): range check, answer, event. -/
def bankRead (i : Word) (s : State) : Except ErrorKind (Word × State) :=
  if s.cfg.numGpuRegs ≤ i.toNat then .error (.registerOutOfRange i)
  else
    let (v, t) := bankAnswer s
    .ok (v, t.emit (.read i v))

/-- `Send(v)` (45_result_ops.md R189): call the method at `maddr.address`, then advance the address. -/
def send (v : Word) (s : State) : State :=
  (s.emit (.call ((methodAddress s.maddr).setWidth 32) v)).setMaddr (advanceMethod s.maddr)

/-! ## Result operations (45_result_ops.md R180 to R188) -/

/-- `ApplyResult(rop, d, v)`: fetch, register write, method-address write, send, in that order. -/
def applyResult (rop : ResultOp) (d : RegIdx) (v : Word) (s : State) : Except ErrorKind State :=
  match rop with
  | .ignoreFetch => (nextParam s).map fun (p, t) => t.setReg d p
  | .move => .ok (s.setReg d v)
  | .moveSetMethod => .ok ((s.setReg d v).setMaddr v)
  | .fetchSend => (nextParam s).map fun (p, t) => send v (t.setReg d p)
  | .moveSend => .ok (send v (s.setReg d v))
  | .fetchSetMethod => (nextParam s).map fun (p, t) => (t.setReg d p).setMaddr v
  | .moveSetMethodFetchSend => (nextParam s).map fun (p, t) => send p ((t.setReg d v).setMaddr v)
  | .moveSetMethodSend =>
    .ok (send ((v >>> 12) &&& 0x3F#32) ((s.setReg d v).setMaddr v))

/-! ## The end of an instruction (40_sequencer.md R100, R102, R105 to R108) -/

/-- `Finish()` (R108): DONE, or PARAMETER_LEFTOVER where parameters are left. -/
def finish (s : State) : State :=
  { s with status :=
      if s.cursor = s.params.length then .done else .error (.parameterLeftover s.cursor) }

/-- What follows a non-BRANCH instruction, by the slot it was fetched in (R105): the new `pc`, the new
`slot`, and in an exit's delay slot the end of the run. -/
def retire (isExit : Bool) (s : State) : State :=
  match s.slot with
  | .none => { s with pc := s.pc + 4#32, slot := if isExit then .exitDelay else .none }
  | .branchDelay t => { s with pc := t, slot := .none }
  | .exitDelay => finish { s with pc := s.pc + 4#32 }

/-- Conclude an instruction that began in `s`: retire the state its result operation leaves, or raise
the error it met, when the step had come as far as `t`. -/
def conclude (isExit : Bool) (s t : State) (r : Except ErrorKind State) :
    Host.Outcome State Fault Refusal :=
  match r with
  | .ok u => .next (retire isExit u)
  | .error e => .next (raise e s t)

/-- An instruction that has computed `v` (and the carry it leaves, if it writes one) in state `t`: apply
the result operation, then the carry, then conclude (41_alu.md R120). -/
def produce (rop : ResultOp) (isExit : Bool) (d : RegIdx) (v : Word) (c : Option Bool) (s t : State) :
    Host.Outcome State Fault Refusal :=
  conclude isExit s t ((applyResult rop d v t).map fun u => u.setCarry c)

end Sys2Proof.Machine
end

