-- ==== Sys2Proof/Machine/Alu.lean ====
section
/-! DEFINITION. The ALU operation (41_alu.md R120 to R130), one meaning per function. -/

namespace Sys2Proof.Machine

/-- The common part of an ALU function that writes carry (R120). -/
def aluFlagged (f : Word × Bool) (rop : ResultOp) (isExit : Bool) (d : RegIdx) (s : State) :
    Host.Outcome State Fault Refusal :=
  produce rop isExit d f.1 (some f.2) s s

/-- The common part of a logic function: carry is unchanged (R120). -/
def aluLogic (v : Word) (rop : ResultOp) (isExit : Bool) (d : RegIdx) (s : State) :
    Host.Outcome State Fault Refusal :=
  produce rop isExit d v none s s

/-- ADD (R121). -/
def execAdd (rop : ResultOp) (isExit : Bool) (d a b : RegIdx) (s : State) :
    Host.Outcome State Fault Refusal :=
  aluFlagged (aluAdd (s.reg a) (s.reg b)) rop isExit d s

/-- ADC (R122). -/
def execAdc (rop : ResultOp) (isExit : Bool) (d a b : RegIdx) (s : State) :
    Host.Outcome State Fault Refusal :=
  aluFlagged (aluAdc (s.reg a) (s.reg b) s.carry) rop isExit d s

/-- SUB (R123). -/
def execSub (rop : ResultOp) (isExit : Bool) (d a b : RegIdx) (s : State) :
    Host.Outcome State Fault Refusal :=
  aluFlagged (aluSub s.cfg.subCarry (s.reg a) (s.reg b)) rop isExit d s

/-- SBB (R124). -/
def execSbb (rop : ResultOp) (isExit : Bool) (d a b : RegIdx) (s : State) :
    Host.Outcome State Fault Refusal :=
  aluFlagged (aluSbb s.cfg.subCarry (s.reg a) (s.reg b) s.carry) rop isExit d s

/-- XOR (R125). -/
def execXor (rop : ResultOp) (isExit : Bool) (d a b : RegIdx) (s : State) :
    Host.Outcome State Fault Refusal :=
  aluLogic (s.reg a ^^^ s.reg b) rop isExit d s

/-- OR (R126). -/
def execOr (rop : ResultOp) (isExit : Bool) (d a b : RegIdx) (s : State) :
    Host.Outcome State Fault Refusal :=
  aluLogic (s.reg a ||| s.reg b) rop isExit d s

/-- AND (R127). -/
def execAnd (rop : ResultOp) (isExit : Bool) (d a b : RegIdx) (s : State) :
    Host.Outcome State Fault Refusal :=
  aluLogic (s.reg a &&& s.reg b) rop isExit d s

/-- ANDNOT (R128): `a & ~b`. -/
def execAndnot (rop : ResultOp) (isExit : Bool) (d a b : RegIdx) (s : State) :
    Host.Outcome State Fault Refusal :=
  aluLogic (s.reg a &&& ~~~ s.reg b) rop isExit d s

/-- NAND (R129). -/
def execNand (rop : ResultOp) (isExit : Bool) (d a b : RegIdx) (s : State) :
    Host.Outcome State Fault Refusal :=
  aluLogic (~~~ (s.reg a &&& s.reg b)) rop isExit d s

/-- `ExecALU_UNKNOWN` (R130): the diagnostic, then nothing, or the result operation on 0, by
`UNKNOWN_ALU_MODE`. `is_exit` applies and carry is unchanged in both modes. -/
def aluUnknown (rop : ResultOp) (isExit : Bool) (d : RegIdx) (w : Word) (s : State) :
    Host.Outcome State Fault Refusal :=
  let t := s.emit (.diag s.pc w)
  match s.cfg.unknownAlu with
  | .nop => conclude isExit s t (.ok t)
  | .resultZero => produce rop isExit d 0#32 none s t

/-- ALU codes 4 to 7 (R130). -/
def execAluReserved47 (rop : ResultOp) (isExit : Bool) (d : RegIdx) (w : Word) (s : State) :
    Host.Outcome State Fault Refusal :=
  aluUnknown rop isExit d w s

/-- ALU code 13 (R130). -/
def execAluUnrecognised13 (rop : ResultOp) (isExit : Bool) (d : RegIdx) (w : Word) (s : State) :
    Host.Outcome State Fault Refusal :=
  aluUnknown rop isExit d w s

/-- ALU codes 14 and 15 (R130). -/
def execAluUnrecognised1415 (rop : ResultOp) (isExit : Bool) (d : RegIdx) (w : Word) (s : State) :
    Host.Outcome State Fault Refusal :=
  aluUnknown rop isExit d w s

/-- ALU codes 16 to 31 (R130). -/
def execAluUnrecognised1631 (rop : ResultOp) (isExit : Bool) (d : RegIdx) (w : Word) (s : State) :
    Host.Outcome State Fault Refusal :=
  aluUnknown rop isExit d w s

end Sys2Proof.Machine
end

