-- ==== Sys2Proof/Machine/Bitfield.lean ====
section
/-! DEFINITION. ADD_IMM and the bit-field operations (42_immediate_bitfield.md R140 to R145). -/

namespace Sys2Proof.Machine

/-- ADD_IMM (R140). -/
def execAddi (rop : ResultOp) (isExit : Bool) (d a : RegIdx) (imm : Imm18) (s : State) :
    Host.Outcome State Fault Refusal :=
  produce rop isExit d (s.reg a + sext18 imm) none s s

/-- EXTRACT_INSERT (R142). -/
def execExtins (rop : ResultOp) (isExit : Bool) (d a b : RegIdx) (srcBit size dstBit : Field5)
    (s : State) : Host.Outcome State Fault Refusal :=
  produce rop isExit d (insertField (s.reg a) (s.reg b) srcBit size dstBit) none s s

/-- A value that depends on a register shift amount (R145): below 32 it is `value` of the amount; from
32 on it is a draw, or `value` of the amount modulo 32, by `LARGE_SHIFT_MODE`. -/
def shiftValue (amount : Word) (value : Nat → Word) (s : State) : Word × State :=
  if amount.toNat < 32 then (value amount.toNat, s)
  else
    match s.cfg.largeShift with
    | .draw => shiftDraw s
    | .mod32 => (value (amount.toNat % 32), s)

/-- EXTRACT_SHL_IMM (R143): the right-shift amount is a register. -/
def execExtshli (rop : ResultOp) (isExit : Bool) (d a b : RegIdx) (size dstBit : Field5) (s : State) :
    Host.Outcome State Fault Refusal :=
  let r := shiftValue (s.reg a) (fun n => extractShift (s.reg b) n size dstBit.toNat) s
  produce rop isExit d r.1 none s r.2

/-- EXTRACT_SHL_REG (R144): the left-shift amount is a register. -/
def execExtshlr (rop : ResultOp) (isExit : Bool) (d a b : RegIdx) (srcBit size : Field5) (s : State) :
    Host.Outcome State Fault Refusal :=
  let r := shiftValue (s.reg a) (fun n => extractShift (s.reg b) srcBit.toNat size n) s
  produce rop isExit d r.1 none s r.2

end Sys2Proof.Machine
end

