-- ==== Sys2Proof/Machine/Branch.lean ====
section
/-! DEFINITION. BRANCH (44_branch.md R170 to R175) and its place in the step (40_sequencer.md R100,
R104, R105). -/

namespace Sys2Proof.Machine

/-- A branch that is not in a delay slot: fall through (R171), jump at once (R172), or set the pending
target and run the delay slot (R173). -/
def takeBranch (hit annul : Bool) (target : Word) (s : State) : State :=
  if hit then
    if annul then { s with pc := target }
    else { s with pc := s.pc + 4#32, slot := .branchDelay target }
  else { s with pc := s.pc + 4#32 }

/-- BRANCH: BAD_DELAY_SLOT in any delay slot, before an operand is read (R104); else by its condition. -/
def branch (nonzero annul : Bool) (a : RegIdx) (imm : Imm18) (s : State) :
    Host.Outcome State Fault Refusal :=
  match s.slot with
  | .none => .next (takeBranch (condHit nonzero (s.reg a)) annul (branchTarget s.pc imm) s)
  | .branchDelay _ => .next (raise (.badDelaySlot s.pc) s s)
  | .exitDelay => .next (raise (.badDelaySlot s.pc) s s)

/-- BZ: `branch_cond` = ZERO (R170). -/
def execBz (annul : Bool) (a : RegIdx) (imm : Imm18) (s : State) :
    Host.Outcome State Fault Refusal :=
  branch false annul a imm s

/-- BNZ: `branch_cond` = NONZERO (R170). -/
def execBnz (annul : Bool) (a : RegIdx) (imm : Imm18) (s : State) :
    Host.Outcome State Fault Refusal :=
  branch true annul a imm s

end Sys2Proof.Machine
end

