-- ==== Sys2Proof/Machine/Read.lean ====
section
/-! DEFINITION. READ (43_read.md R160, R161). -/

namespace Sys2Proof.Machine

/-- READ (R160): the range check on the wrapped index, the bank's answer and its event, then the result
operation. -/
def execRead (rop : ResultOp) (isExit : Bool) (d a : RegIdx) (imm : Imm18) (s : State) :
    Host.Outcome State Fault Refusal :=
  match bankRead (s.reg a + sext18 imm) s with
  | .error e => conclude isExit s s (.error e)
  | .ok (v, t) => produce rop isExit d v none s t

end Sys2Proof.Machine
end

