-- ==== Sys2Proof/Machine/Reserved.lean ====
section
/-! DEFINITION. RESERVED, operation 6 (40_sequencer.md R109). -/

namespace Sys2Proof.Machine

/-- RESERVED (R109): a diagnostic and nothing else; `is_exit` applies. -/
def execRsvd (isExit : Bool) (w : Word) (s : State) : Host.Outcome State Fault Refusal :=
  let t := s.emit (.diag s.pc w)
  conclude isExit s t (.ok t)

end Sys2Proof.Machine
end

