-- ==== Sys2Proof/Machine/Dispatch.lean ====
section
/-! DEFINITION. Dispatch on the decoded instruction (40_sequencer.md R103): one arm per constructor. -/

namespace Sys2Proof.Machine

def exec (i : Instr) (s : State) : Host.Outcome State Fault Refusal :=
  match i with
  | .add rop x d a b => Sys2Proof.Machine.execAdd rop x d a b s
  | .adc rop x d a b => Sys2Proof.Machine.execAdc rop x d a b s
  | .sub rop x d a b => Sys2Proof.Machine.execSub rop x d a b s
  | .sbb rop x d a b => Sys2Proof.Machine.execSbb rop x d a b s
  | .xor rop x d a b => Sys2Proof.Machine.execXor rop x d a b s
  | .or rop x d a b => Sys2Proof.Machine.execOr rop x d a b s
  | .and rop x d a b => Sys2Proof.Machine.execAnd rop x d a b s
  | .andnot rop x d a b => Sys2Proof.Machine.execAndnot rop x d a b s
  | .nand rop x d a b => Sys2Proof.Machine.execNand rop x d a b s
  | .aluReserved47 rop x d w => Sys2Proof.Machine.execAluReserved47 rop x d w s
  | .aluUnrecognised13 rop x d w => Sys2Proof.Machine.execAluUnrecognised13 rop x d w s
  | .aluUnrecognised1415 rop x d w => Sys2Proof.Machine.execAluUnrecognised1415 rop x d w s
  | .aluUnrecognised1631 rop x d w => Sys2Proof.Machine.execAluUnrecognised1631 rop x d w s
  | .addi rop x d a imm => Sys2Proof.Machine.execAddi rop x d a imm s
  | .extins rop x d a b sb sz db => Sys2Proof.Machine.execExtins rop x d a b sb sz db s
  | .extshli rop x d a b sz db => Sys2Proof.Machine.execExtshli rop x d a b sz db s
  | .extshlr rop x d a b sb sz => Sys2Proof.Machine.execExtshlr rop x d a b sb sz s
  | .read rop x d a imm => Sys2Proof.Machine.execRead rop x d a imm s
  | .rsvd x w => Sys2Proof.Machine.execRsvd x w s
  | .bz annul a imm => Sys2Proof.Machine.execBz annul a imm s
  | .bnz annul a imm => Sys2Proof.Machine.execBnz annul a imm s

end Sys2Proof.Machine
end

