-- ==== Sys2Proof/Machine/Engine.lean ====
section
/-! DEFINITION. The host's side of the engine: installing code, starting an invocation
(70_reset_and_hazards.md R230 to R232) and the return of a re-entrant callee (20_memory.md R60). -/

namespace Sys2Proof.Machine

/-- `install(method_id, word)` (70_reset_and_hazards.md R231): forward to the code store. The running
invocation does not see it (20_memory.md R44). -/
def State.install (s : State) (id : Nat) (w : Word) : State :=
  { s with memory := s.memory.append id w }

/-- The assignments of R230, from `X[1..7] <- 0` to `status <- RUNNING`, for parameters with first word
`p`. Parameters of the implementation, the code store and the free-value counter go on. -/
def State.start (s : State) (body params answers : List Word) (p : Word) : State :=
  { s with
    body := body
    params := params
    answers := answers
    x := (Vector.replicate 8 0#32).set 1 p
    pc := 0#32
    carry := false
    maddr := 0#32
    cursor := 1
    slot := .none
    status := .running
    trace := [] }

/-- `Invoke(entry_id, params)` up to its first step (R230), with the bank answers the host supplies
(D2). UNKNOWN_MACRO (60_exceptions.md R202) and the empty parameter vector (R208) end it before the
core's state is set up (log 12). -/
def State.invoke (s : State) (entry : Nat) (params answers : List Word) : State :=
  match s.memory.bodies entry with
  | [] => { s with trace := [], status := .error (.unknownMacro entry) }
  | first :: others =>
    match params with
    | [] => { s with trace := [], status := .error (.parameterUnderflow 0) }
    | p :: _ =>
      { s with draws := s.draws + 1 }.start (pickBody s.draws first others) params answers p

/-- The state of a suspended invocation when a re-entrant callee returns (20_memory.md R60, D18). The
callee's installs and its nested invocation ran on a machine of their own, `nested`; the suspended
invocation resumes where it called out, and only the code store and the count of free values taken come
from the callee (log 13). -/
def State.calleeReturns (outer nested : State) : State :=
  { outer with memory := nested.memory, draws := nested.draws }

end Sys2Proof.Machine
end

