-- ==== Sys2Proof/Decode.lean ====
section
/-! DEFINITION. The decoder (30_encoding.md R70 to R84) and the encoder (R87). -/

namespace Sys2Proof

/-! ## The fields of a word (R71) -/

/-- `w[2:0]`. -/
def fieldOperation (w : Word) : BitVec 3 := w.extractLsb' 0 3
/-- `w[6:4]`. -/
def fieldResultOp (w : Word) : BitVec 3 := w.extractLsb' 4 3
/-- `w[4]`: 0 is ZERO, 1 is NONZERO (R76). -/
def fieldBranchCond (w : Word) : Bool := w.getLsbD 4
/-- `w[5]`. -/
def fieldBranchAnnul (w : Word) : Bool := w.getLsbD 5
/-- `w[7]`. -/
def fieldIsExit (w : Word) : Bool := w.getLsbD 7
/-- `w[10:8]`. -/
def fieldDst (w : Word) : RegIdx := w.extractLsb' 8 3
/-- `w[13:11]`. -/
def fieldSrcA (w : Word) : RegIdx := w.extractLsb' 11 3
/-- `w[16:14]`. -/
def fieldSrcB (w : Word) : RegIdx := w.extractLsb' 14 3
/-- `w[31:14]`. -/
def fieldImm (w : Word) : Imm18 := w.extractLsb' 14 18
/-- `w[21:17]`, as the ALU code. -/
def fieldAluOp (w : Word) : Field5 := w.extractLsb' 17 5
/-- `w[21:17]`, as a bit number. -/
def fieldSrcBit (w : Word) : Field5 := w.extractLsb' 17 5
/-- `w[26:22]`. -/
def fieldSize (w : Word) : Field5 := w.extractLsb' 22 5
/-- `w[31:27]`. -/
def fieldDstBit (w : Word) : Field5 := w.extractLsb' 27 5

/-! ## The code tables -/

/-- The `result_op` code of R74, by position in the source's list (D1). -/
def ResultOp.code : ResultOp → BitVec 3
  | .ignoreFetch => 0#3
  | .move => 1#3
  | .moveSetMethod => 2#3
  | .fetchSend => 3#3
  | .moveSend => 4#3
  | .fetchSetMethod => 5#3
  | .moveSetMethodFetchSend => 6#3
  | .moveSetMethodSend => 7#3

/-- The result operation of a code (R74): all 8 codes are defined. -/
def ResultOp.ofCode (c : BitVec 3) : ResultOp :=
  match c.toNat with
  | 0 => .ignoreFetch
  | 1 => .move
  | 2 => .moveSetMethod
  | 3 => .fetchSend
  | 4 => .moveSend
  | 5 => .fetchSetMethod
  | 6 => .moveSetMethodFetchSend
  | _ => .moveSetMethodSend

/-! ## Decoding -/

/-- The ALU words (`operation = 0`), by `alu_op` (R75). -/
def decodeAlu (w : Word) : Instr :=
  let rop := ResultOp.ofCode (fieldResultOp w)
  let x := fieldIsExit w
  let d := fieldDst w
  let a := fieldSrcA w
  let b := fieldSrcB w
  match (fieldAluOp w).toNat with
  | 0 => .add rop x d a b
  | 1 => .adc rop x d a b
  | 2 => .sub rop x d a b
  | 3 => .sbb rop x d a b
  | 8 => .xor rop x d a b
  | 9 => .or rop x d a b
  | 10 => .and rop x d a b
  | 11 => .andnot rop x d a b
  | 12 => .nand rop x d a b
  | 13 => .aluUnrecognised13 rop x d w
  | n =>
    if n < 8 then .aluReserved47 rop x d w
    else if n < 16 then .aluUnrecognised1415 rop x d w
    else .aluUnrecognised1631 rop x d w

/-- Decode one word (R84). It is total and rejects nothing: "no 32-bit word is illegal" (R81, R83).
`operation` codes are those of R73 (D1). -/
def decode (w : Word) : Instr :=
  let rop := ResultOp.ofCode (fieldResultOp w)
  let x := fieldIsExit w
  let d := fieldDst w
  let a := fieldSrcA w
  let b := fieldSrcB w
  match (fieldOperation w).toNat with
  | 0 => decodeAlu w
  | 1 => .addi rop x d a (fieldImm w)
  | 2 => .extins rop x d a b (fieldSrcBit w) (fieldSize w) (fieldDstBit w)
  | 3 => .extshli rop x d a b (fieldSize w) (fieldDstBit w)
  | 4 => .extshlr rop x d a b (fieldSrcBit w) (fieldSize w)
  | 5 => .read rop x d a (fieldImm w)
  | 6 => .rsvd x w
  | _ =>
    if fieldBranchCond w then .bnz (fieldBranchAnnul w) a (fieldImm w)
    else .bz (fieldBranchAnnul w) a (fieldImm w)

/-- What the decoder reads from an instruction of `nbits` bits with value `w`. The one instruction
length is 32 bits (R70), so a value that needs more is no instruction; every word decodes. -/
def decodeTableWord (nbits w : Nat) : Option Instr :=
  if w % 2 ^ nbits < 2 ^ 32 then some (decode (BitVec.ofNat 32 (w % 2 ^ nbits))) else none

/-! ## Encoding (R85, R87): don't-care bits are assembled as 0 -/

/-- A field's value at its place in the word, `v << lo`. -/
def place {n : Nat} (v : BitVec n) (lo : Nat) : Word := v.setWidth 32 <<< lo

/-- The part every operation with a destination shares: `op | rop<<4 | x<<7 | d<<8`. -/
def encodeLow (op : BitVec 3) (rop : ResultOp) (x : Bool) (d : RegIdx) : Word :=
  place op 0 ||| place rop.code 4 ||| place (BitVec.ofBool x) 7 ||| place d 8

/-- The ALU format. -/
def encodeAlu (alu : Field5) (rop : ResultOp) (x : Bool) (d a b : RegIdx) : Word :=
  encodeLow 0#3 rop x d ||| place a 11 ||| place b 14 ||| place alu 17

/-- The ADD_IMM and READ format. -/
def encodeImm (op : BitVec 3) (rop : ResultOp) (x : Bool) (d a : RegIdx) (imm : Imm18) : Word :=
  encodeLow op rop x d ||| place a 11 ||| place imm 14

/-- The EXTRACT_* format. -/
def encodeBitfield (op : BitVec 3) (rop : ResultOp) (x : Bool) (d a b : RegIdx)
    (srcBit size dstBit : Field5) : Word :=
  encodeLow op rop x d ||| place a 11 ||| place b 14 ||| place srcBit 17 ||| place size 22 |||
    place dstBit 27

/-- The BRANCH format: `0b111 | cond<<4 | annul<<5 | a<<11 | imm<<14`. -/
def encodeBranch (cond annul : Bool) (a : RegIdx) (imm : Imm18) : Word :=
  place 7#3 0 ||| place (BitVec.ofBool cond) 4 ||| place (BitVec.ofBool annul) 5 |||
    place a 11 ||| place imm 14

/-- The RESERVED format: `0b110 | x<<7`. -/
def encodeReserved (x : Bool) : Word := place 6#3 0 ||| place (BitVec.ofBool x) 7

/-- The ALU format for a code that names no function (R85: `ALU<n>.<RESULT_OP>`), with `alu_op`, `src_a`
and `src_b` as in the carried word. -/
def encodeAluCode (rop : ResultOp) (x : Bool) (d : RegIdx) (w : Word) : Word :=
  encodeAlu (fieldAluOp w) rop x d (fieldSrcA w) (fieldSrcB w)

/-- Assemble an instruction by the formulas of R87: every bit its format does not name is 0. -/
def assemble : Instr → Word
  | .add rop x d a b => encodeAlu 0#5 rop x d a b
  | .adc rop x d a b => encodeAlu 1#5 rop x d a b
  | .sub rop x d a b => encodeAlu 2#5 rop x d a b
  | .sbb rop x d a b => encodeAlu 3#5 rop x d a b
  | .xor rop x d a b => encodeAlu 8#5 rop x d a b
  | .or rop x d a b => encodeAlu 9#5 rop x d a b
  | .and rop x d a b => encodeAlu 10#5 rop x d a b
  | .andnot rop x d a b => encodeAlu 11#5 rop x d a b
  | .nand rop x d a b => encodeAlu 12#5 rop x d a b
  | .aluReserved47 rop x d w => encodeAluCode rop x d w
  | .aluUnrecognised13 rop x d w => encodeAluCode rop x d w
  | .aluUnrecognised1415 rop x d w => encodeAluCode rop x d w
  | .aluUnrecognised1631 rop x d w => encodeAluCode rop x d w
  | .addi rop x d a imm => encodeImm 1#3 rop x d a imm
  | .extins rop x d a b sb sz db => encodeBitfield 2#3 rop x d a b sb sz db
  | .extshli rop x d a b sz db => encodeBitfield 3#3 rop x d a b 0#5 sz db
  | .extshlr rop x d a b sb sz => encodeBitfield 4#3 rop x d a b sb sz 0#5
  | .read rop x d a imm => encodeImm 5#3 rop x d a imm
  | .rsvd x _ => encodeReserved x
  | .bz annul a imm => encodeBranch false annul a imm
  | .bnz annul a imm => encodeBranch true annul a imm

/-- The fetched word an instruction carries for its diagnostic, if it carries one (log 14). -/
def carriedWord : Instr → Option Word
  | .aluReserved47 _ _ _ w => some w
  | .aluUnrecognised13 _ _ _ w => some w
  | .aluUnrecognised1415 _ _ _ w => some w
  | .aluUnrecognised1631 _ _ _ w => some w
  | .rsvd _ w => some w
  | .add .. | .adc .. | .sub .. | .sbb .. | .xor .. | .or .. | .and .. | .andnot .. | .nand ..
  | .addi .. | .extins .. | .extshli .. | .extshlr .. | .read .. | .bz .. | .bnz .. => none

/-- The word an instruction is: the one it carries (log 14), else the assembled one (R87). -/
def encode (i : Instr) : Word := (carriedWord i).getD (assemble i)

end Sys2Proof
end

