-- ==== Sys2Proof/WellFormed.lean ====
section
/-! DEFINITION. Well-formed instructions: the terms of `Instr` that some word decodes to. -/

namespace Sys2Proof

/-- The word `w` is an ALU word whose `alu_op` lies in `lo..hi` and whose fields are the given ones. -/
def aluWordAgrees (lo hi : Nat) (rop : ResultOp) (x : Bool) (d : RegIdx) (w : Word) : Bool :=
  fieldOperation w == 0#3 &&
  decide (lo ≤ (fieldAluOp w).toNat) && decide ((fieldAluOp w).toNat ≤ hi) &&
  fieldResultOp w == rop.code && fieldIsExit w == x && fieldDst w == d

/-- Well-formedness. Every operand of an ordinary instruction is a bit field that the word holds at
any value (30_encoding.md R81), so only the rows that carry their word have anything to check: the
word is one of the row's (spec/opcode_table.json) and its fields are the constructor's. -/
def Instr.wf : Instr → Bool
  | .add _ _ _ _ _ => true
  | .adc _ _ _ _ _ => true
  | .sub _ _ _ _ _ => true
  | .sbb _ _ _ _ _ => true
  | .xor _ _ _ _ _ => true
  | .or _ _ _ _ _ => true
  | .and _ _ _ _ _ => true
  | .andnot _ _ _ _ _ => true
  | .nand _ _ _ _ _ => true
  | .aluReserved47 rop x d w => aluWordAgrees 4 7 rop x d w
  | .aluUnrecognised13 rop x d w => aluWordAgrees 13 13 rop x d w
  | .aluUnrecognised1415 rop x d w => aluWordAgrees 14 15 rop x d w
  | .aluUnrecognised1631 rop x d w => aluWordAgrees 16 31 rop x d w
  | .addi _ _ _ _ _ => true
  | .extins _ _ _ _ _ _ _ _ => true
  | .extshli _ _ _ _ _ _ _ => true
  | .extshlr _ _ _ _ _ _ _ => true
  | .read _ _ _ _ _ => true
  | .rsvd x w => fieldOperation w == 6#3 && fieldIsExit w == x
  | .bz _ _ _ => true
  | .bnz _ _ _ => true

end Sys2Proof
end

