-- ==== Sys2Proof/Machine/Step.lean ====
section
/-! DEFINITION. One step (40_sequencer.md R100). -/

namespace Sys2Proof.Machine

/-- `Step()` (R100), only while `status` is RUNNING: fetch, decode, execute. A fetch outside the body is
the error FETCH_OUT_OF_RANGE, a next state; a core that is not running does not step (10_state.md R28;
log 10). -/
def step (s : State) : Host.Outcome State Fault Refusal :=
  match s.status with
  | .running =>
    match fetch s with
    | .ok w => exec (decode w) s
    | .error e => .next (raise e s s)
  | .done => .fault .notRunning
  | .error _ => .fault .notRunning

/-- `s` with a word placed in the body where the next fetch reads (word `pc >> 2`; a shorter body is
filled with zero words up to there) and with the status a fetch needs (log 2). -/
def State.withFetchWord (s : State) (nbits w : Nat) : State :=
  let k := s.pc.toNat / 4
  { s with
    body := s.body.take k ++ List.replicate (k - s.body.length) 0#32 ++
      [BitVec.ofNat 32 (w % 2 ^ nbits)] ++ s.body.drop (k + 1)
    status := .running }

end Sys2Proof.Machine
end

