-- ==== Sys2Proof/Safety.lean ====
section
/-! DEFINITION. The terms claims use: the machine's invariant, what a completed instruction has done, and
the rows of the opcode table. Written from the rules' summaries and tables, not from the operations. -/

namespace Sys2Proof.Safety

open Sys2Proof.Machine

/-! ## The result operations, by the table of 45_result_ops.md R191 -/

/-- "consumes a parameter": codes 0, 3, 5, 6. -/
def fetches : ResultOp → Bool
  | .ignoreFetch => true
  | .move => false
  | .moveSetMethod => false
  | .fetchSend => true
  | .moveSend => false
  | .fetchSetMethod => true
  | .moveSetMethodFetchSend => true
  | .moveSetMethodSend => false

/-- "sends": codes 3, 4, 6, 7. -/
def sends : ResultOp → Bool
  | .ignoreFetch => false
  | .move => false
  | .moveSetMethod => false
  | .fetchSend => true
  | .moveSend => true
  | .fetchSetMethod => false
  | .moveSetMethodFetchSend => true
  | .moveSetMethodSend => true

/-- "method-setting": codes 2, 5, 6, 7. -/
def setsMethod : ResultOp → Bool
  | .ignoreFetch => false
  | .move => false
  | .moveSetMethod => true
  | .fetchSend => false
  | .moveSend => false
  | .fetchSetMethod => true
  | .moveSetMethodFetchSend => true
  | .moveSetMethodSend => true

/-- "whose register write is the parameter": codes 0, 3, 5. -/
def writesParam : ResultOp → Bool
  | .ignoreFetch => true
  | .move => false
  | .moveSetMethod => false
  | .fetchSend => true
  | .moveSend => false
  | .fetchSetMethod => true
  | .moveSetMethodFetchSend => false
  | .moveSetMethodSend => false

/-- The argument a sending result operation sends: `v`, the parameter, or `v[17:12]` (R191). -/
def sentArg (rop : ResultOp) (v p : Word) : Word :=
  match rop with
  | .moveSetMethodFetchSend => p
  | .moveSetMethodSend => (v.extractLsb' 12 6).setWidth 32
  | .ignoreFetch | .move | .moveSetMethod | .fetchSend | .moveSend | .fetchSetMethod => v

/-- The parameter a fetch takes in `s`, where there is one. -/
def nextWord (s : State) : Word := s.params.getD s.cursor 0#32

/-- A fetch in `s`, if `rop` makes one, finds a parameter (20_memory.md R45). -/
def CanFetch (rop : ResultOp) (s : State) : Prop :=
  fetches rop = true → s.cursor < s.params.length

/-- The method-address register a send of `rop` uses: the one `rop` has just set, if it sets it. -/
def methodUsed (rop : ResultOp) (v : Word) (s : State) : Word :=
  if setsMethod rop then v else s.maddr

/-! ## What a completed instruction has done -/

/-- The effects of `ApplyResult(rop, d, v)` from `s` to `t`, with the events `pre` before its own: the
table of R191 and the send of R189. Registers other than `d` keep their values, and so does every
register when `d` is R0. -/
structure Delivered (rop : ResultOp) (d : RegIdx) (v : Word) (pre : List Event) (s t : State) :
    Prop where
  reg : ∀ i, t.reg i =
    if i = d ∧ d ≠ 0#3 then (if writesParam rop then nextWord s else v) else s.reg i
  cursor : t.cursor = if fetches rop then s.cursor + 1 else s.cursor
  quiet : sends rop = false → t.maddr = methodUsed rop v s
  upper : sends rop = true →
    t.maddr.extractLsb' 12 20 = (methodUsed rop v s).extractLsb' 12 20
  address : sends rop = true →
    (t.maddr.extractLsb' 0 12).toNat =
      (((methodUsed rop v s).extractLsb' 0 12).toNat +
        ((methodUsed rop v s).extractLsb' 12 6).toNat) % 4096
  trace : t.trace = s.trace ++ pre ++
    if sends rop then
      [Event.call (((methodUsed rop v s).extractLsb' 0 12).setWidth 32)
        (sentArg rop v (nextWord s))]
    else []

/-- `pc`, `slot` and `status` after a non-BRANCH instruction fetched in `s` (40_sequencer.md R102, R105,
R106, R108). -/
structure Sequenced (isExit : Bool) (s t : State) : Prop where
  pc : t.pc = match s.slot with
    | .branchDelay target => target
    | .none | .exitDelay => s.pc + 4#32
  slot : t.slot = match s.slot with
    | .none => if isExit then .exitDelay else .none
    | .branchDelay _ => .none
    | .exitDelay => .exitDelay
  status : t.status = match s.slot with
    | .exitDelay =>
      if t.cursor = s.params.length then .done else .error (.parameterLeftover t.cursor)
    | .none | .branchDelay _ => s.status

/-- The inputs of the invocation, the code store and the storage behind R0 are as they were. -/
structure KeepsInputs (s t : State) : Prop where
  cfg : t.cfg = s.cfg
  memory : t.memory = s.memory
  body : t.body = s.body
  params : t.params = s.params
  hidden : t.x[0] = s.x[0]

/-- No answer of the register bank and no free value has been taken. -/
structure KeepsOracle (s t : State) : Prop where
  answers : t.answers = s.answers
  draws : t.draws = s.draws

/-- A whole non-BRANCH instruction: its result operation on `v`, its carry, its sequencing, and nothing
else (apart from the oracle, see `KeepsOracle`). -/
structure Completes (rop : ResultOp) (isExit : Bool) (d : RegIdx) (v : Word) (carry : Bool)
    (pre : List Event) (s t : State) : Prop where
  delivered : Delivered rop d v pre s t
  carry : t.carry = carry
  sequenced : Sequenced isExit s t
  inputs : KeepsInputs s t

/-- An instruction that only logs `pre` (40_sequencer.md R109): no register, parameter, method-address,
flag or call. -/
structure OnlyLogs (isExit : Bool) (pre : List Event) (s t : State) : Prop where
  x : t.x = s.x
  cursor : t.cursor = s.cursor
  maddr : t.maddr = s.maddr
  carry : t.carry = s.carry
  trace : t.trace = s.trace ++ pre
  sequenced : Sequenced isExit s t
  inputs : KeepsInputs s t
  oracle : KeepsOracle s t

/-- What no error of a step may change (60_exceptions.md R210): everything but `status`, `trace` and the
oracle. -/
structure KeepsCore (s t : State) : Prop where
  x : t.x = s.x
  carry : t.carry = s.carry
  maddr : t.maddr = s.maddr
  cursor : t.cursor = s.cursor
  pc : t.pc = s.pc
  slot : t.slot = s.slot
  inputs : KeepsInputs s t

/-- The kinds a step raises before it has completed (60_exceptions.md R209). -/
def stepError : ErrorKind → Bool
  | .fetchOutOfRange _ => true
  | .badDelaySlot _ => true
  | .registerOutOfRange _ => true
  | .parameterUnderflow _ => true
  | .parameterLeftover _ => false
  | .unknownMacro _ => false
  | .jitBufferExhausted => false

/-- The state is one that an error of the last step left. -/
def Raised (t : State) : Prop := ∃ e, t.status = .error e ∧ stepError e = true

/-! ## Instructions by their fields -/

/-- BRANCH, operation 7. -/
def isBranch : Instr → Bool
  | .bz _ _ _ => true
  | .bnz _ _ _ => true
  | .add .. | .adc .. | .sub .. | .sbb .. | .xor .. | .or .. | .and .. | .andnot .. | .nand ..
  | .aluReserved47 .. | .aluUnrecognised13 .. | .aluUnrecognised1415 ..
  | .aluUnrecognised1631 .. | .addi .. | .extins .. | .extshli .. | .extshlr .. | .read ..
  | .rsvd .. => false

/-- READ, operation 5. -/
def isRead : Instr → Bool
  | .read .. => true
  | .add .. | .adc .. | .sub .. | .sbb .. | .xor .. | .or .. | .and .. | .andnot .. | .nand ..
  | .aluReserved47 .. | .aluUnrecognised13 .. | .aluUnrecognised1415 ..
  | .aluUnrecognised1631 .. | .addi .. | .extins .. | .extshli .. | .extshlr .. | .rsvd ..
  | .bz .. | .bnz .. => false

/-- `is_exit`, a field of every operation but BRANCH (30_encoding.md R71). -/
def exitBit : Instr → Bool
  | .add _ x _ _ _ | .adc _ x _ _ _ | .sub _ x _ _ _ | .sbb _ x _ _ _ | .xor _ x _ _ _
  | .or _ x _ _ _ | .and _ x _ _ _ | .andnot _ x _ _ _ | .nand _ x _ _ _ => x
  | .aluReserved47 _ x _ _ | .aluUnrecognised13 _ x _ _ | .aluUnrecognised1415 _ x _ _
  | .aluUnrecognised1631 _ x _ _ => x
  | .addi _ x _ _ _ | .read _ x _ _ _ => x
  | .extins _ x _ _ _ _ _ _ => x
  | .extshli _ x _ _ _ _ _ => x
  | .extshlr _ x _ _ _ _ _ => x
  | .rsvd x _ => x
  | .bz _ _ _ | .bnz _ _ _ => false

/-- The same instruction with `is_exit` set to `x`; a BRANCH has no such field. -/
def withExitBit (x : Bool) : Instr → Instr
  | .add r _ d a b => .add r x d a b
  | .adc r _ d a b => .adc r x d a b
  | .sub r _ d a b => .sub r x d a b
  | .sbb r _ d a b => .sbb r x d a b
  | .xor r _ d a b => .xor r x d a b
  | .or r _ d a b => .or r x d a b
  | .and r _ d a b => .and r x d a b
  | .andnot r _ d a b => .andnot r x d a b
  | .nand r _ d a b => .nand r x d a b
  | .aluReserved47 r _ d w => .aluReserved47 r x d w
  | .aluUnrecognised13 r _ d w => .aluUnrecognised13 r x d w
  | .aluUnrecognised1415 r _ d w => .aluUnrecognised1415 r x d w
  | .aluUnrecognised1631 r _ d w => .aluUnrecognised1631 r x d w
  | .addi r _ d a imm => .addi r x d a imm
  | .extins r _ d a b sb sz db => .extins r x d a b sb sz db
  | .extshli r _ d a b sz db => .extshli r x d a b sz db
  | .extshlr r _ d a b sb sz => .extshlr r x d a b sb sz
  | .read r _ d a imm => .read r x d a imm
  | .rsvd _ w => .rsvd x w
  | .bz n a imm => .bz n a imm
  | .bnz n a imm => .bnz n a imm

/-- The register an instruction may write (10_state.md R21): `dst`, or none for RESERVED and BRANCH. -/
def destination : Instr → Option RegIdx
  | .add _ _ d _ _ | .adc _ _ d _ _ | .sub _ _ d _ _ | .sbb _ _ d _ _ | .xor _ _ d _ _
  | .or _ _ d _ _ | .and _ _ d _ _ | .andnot _ _ d _ _ | .nand _ _ d _ _ => some d
  | .aluReserved47 _ _ d _ | .aluUnrecognised13 _ _ d _ | .aluUnrecognised1415 _ _ d _
  | .aluUnrecognised1631 _ _ d _ => some d
  | .addi _ _ d _ _ | .read _ _ d _ _ => some d
  | .extins _ _ d _ _ _ _ _ => some d
  | .extshli _ _ d _ _ _ _ => some d
  | .extshlr _ _ d _ _ _ _ => some d
  | .rsvd _ _ | .bz _ _ _ | .bnz _ _ _ => none

/-- The carry flag's producers (10_state.md R24). -/
def writesCarry : Instr → Bool
  | .add .. | .adc .. | .sub .. | .sbb .. => true
  | .xor .. | .or .. | .and .. | .andnot .. | .nand ..
  | .aluReserved47 .. | .aluUnrecognised13 .. | .aluUnrecognised1415 ..
  | .aluUnrecognised1631 .. | .addi .. | .extins .. | .extshli .. | .extshlr .. | .read ..
  | .rsvd .. | .bz .. | .bnz .. => false

/-- The carry flag's consumers (10_state.md R24). -/
def readsCarry : Instr → Bool
  | .adc .. | .sbb .. => true
  | .add .. | .sub .. | .xor .. | .or .. | .and .. | .andnot .. | .nand ..
  | .aluReserved47 .. | .aluUnrecognised13 .. | .aluUnrecognised1415 ..
  | .aluUnrecognised1631 .. | .addi .. | .extins .. | .extshli .. | .extshlr .. | .read ..
  | .rsvd .. | .bz .. | .bnz .. => false

/-- The instruction logs a diagnostic (60_exceptions.md R213). -/
def logsWord : Instr → Bool
  | .aluReserved47 .. | .aluUnrecognised13 .. | .aluUnrecognised1415 ..
  | .aluUnrecognised1631 .. | .rsvd .. => true
  | .add .. | .adc .. | .sub .. | .sbb .. | .xor .. | .or .. | .and .. | .andnot .. | .nand ..
  | .addi .. | .extins .. | .extshli .. | .extshlr .. | .read .. | .bz .. | .bnz .. => false

/-- The bits of a word that its operation reads: `w[2:0]` and the fields of 30_encoding.md R72 (R80). -/
def fieldBits : Instr → Word
  | .add .. | .adc .. | .sub .. | .sbb .. | .xor .. | .or .. | .and .. | .andnot .. | .nand ..
  | .aluReserved47 .. | .aluUnrecognised13 .. | .aluUnrecognised1415 ..
  | .aluUnrecognised1631 .. => 0x003FFFF7#32
  | .addi .. | .extins .. | .read .. => 0xFFFFFFF7#32
  | .extshli .. => 0xFFC1FFF7#32
  | .extshlr .. => 0x07FFFFF7#32
  | .bz .. | .bnz .. => 0xFFFFF837#32
  | .rsvd .. => 0x00000087#32

/-- The bits of a word that its instruction keeps: `fieldBits`, but all bits for the rows whose constructor
carries the word it logs (DESIGN CHOICE, log 14). -/
def readBits (i : Instr) : Word := if logsWord i then 0xFFFFFFFF#32 else fieldBits i

/-- The same instruction with another carried word, if it carries one (log 14). -/
def withWord (w : Word) : Instr → Instr
  | .aluReserved47 r x d _ => .aluReserved47 r x d w
  | .aluUnrecognised13 r x d _ => .aluUnrecognised13 r x d w
  | .aluUnrecognised1415 r x d _ => .aluUnrecognised1415 r x d w
  | .aluUnrecognised1631 r x d _ => .aluUnrecognised1631 r x d w
  | .rsvd x _ => .rsvd x w
  | .add r x d a b => .add r x d a b
  | .adc r x d a b => .adc r x d a b
  | .sub r x d a b => .sub r x d a b
  | .sbb r x d a b => .sbb r x d a b
  | .xor r x d a b => .xor r x d a b
  | .or r x d a b => .or r x d a b
  | .and r x d a b => .and r x d a b
  | .andnot r x d a b => .andnot r x d a b
  | .nand r x d a b => .nand r x d a b
  | .addi r x d a imm => .addi r x d a imm
  | .extins r x d a b sb sz db => .extins r x d a b sb sz db
  | .extshli r x d a b sz db => .extshli r x d a b sz db
  | .extshlr r x d a b sb sz => .extshlr r x d a b sb sz
  | .read r x d a imm => .read r x d a imm
  | .bz n a imm => .bz n a imm
  | .bnz n a imm => .bnz n a imm

/-- The sum of the fields that every format with a destination shares, at their places (30_encoding.md
R87): `rop<<4 | x<<7 | d<<8`. -/
def lowSum (rop : ResultOp) (x : Bool) (d : RegIdx) : Nat :=
  rop.code.toNat * 2 ^ 4 + x.toNat * 2 ^ 7 + d.toNat * 2 ^ 8

/-- The ALU formula of 30_encoding.md R87, as a sum: its fields do not overlap. -/
def aluSum (code : Nat) (rop : ResultOp) (x : Bool) (d a b : RegIdx) : Nat :=
  lowSum rop x d + a.toNat * 2 ^ 11 + b.toNat * 2 ^ 14 + code * 2 ^ 17

/-- The formulas of 30_encoding.md R87, as sums. -/
def formula : Instr → Nat
  | .add r x d a b => aluSum 0 r x d a b
  | .adc r x d a b => aluSum 1 r x d a b
  | .sub r x d a b => aluSum 2 r x d a b
  | .sbb r x d a b => aluSum 3 r x d a b
  | .xor r x d a b => aluSum 8 r x d a b
  | .or r x d a b => aluSum 9 r x d a b
  | .and r x d a b => aluSum 10 r x d a b
  | .andnot r x d a b => aluSum 11 r x d a b
  | .nand r x d a b => aluSum 12 r x d a b
  | .aluReserved47 r x d w | .aluUnrecognised13 r x d w | .aluUnrecognised1415 r x d w
  | .aluUnrecognised1631 r x d w =>
    aluSum (w.extractLsb' 17 5).toNat r x d (w.extractLsb' 11 3) (w.extractLsb' 14 3)
  | .addi r x d a imm => 1 + lowSum r x d + a.toNat * 2 ^ 11 + imm.toNat * 2 ^ 14
  | .extins r x d a b sb sz db =>
    2 + lowSum r x d + a.toNat * 2 ^ 11 + b.toNat * 2 ^ 14 + sb.toNat * 2 ^ 17 +
      sz.toNat * 2 ^ 22 + db.toNat * 2 ^ 27
  | .extshli r x d a b sz db =>
    3 + lowSum r x d + a.toNat * 2 ^ 11 + b.toNat * 2 ^ 14 + sz.toNat * 2 ^ 22 + db.toNat * 2 ^ 27
  | .extshlr r x d a b sb sz =>
    4 + lowSum r x d + a.toNat * 2 ^ 11 + b.toNat * 2 ^ 14 + sb.toNat * 2 ^ 17 + sz.toNat * 2 ^ 22
  | .read r x d a imm => 5 + lowSum r x d + a.toNat * 2 ^ 11 + imm.toNat * 2 ^ 14
  | .rsvd x _ => 6 + x.toNat * 2 ^ 7
  | .bz annul a imm => 7 + annul.toNat * 2 ^ 5 + a.toNat * 2 ^ 11 + imm.toNat * 2 ^ 14
  | .bnz annul a imm => 7 + 2 ^ 4 + annul.toNat * 2 ^ 5 + a.toNat * 2 ^ 11 + imm.toNat * 2 ^ 14

/-! ## The opcode table (spec/opcode_table.json) -/

/-- One row of the table: a word `w` belongs to it when `w & mask = pattern`. -/
structure Row where
  mnemonic : String
  pattern : Word
  mask : Word
  deriving DecidableEq, Repr

/-- The word belongs to the row. -/
def Row.covers (r : Row) (w : Word) : Bool := w &&& r.mask == r.pattern

/-- The row of an instruction. -/
def rowOf : Instr → Row
  | .add .. => ⟨"ADD", 0x00000000#32, 0x003E0007#32⟩
  | .adc .. => ⟨"ADC", 0x00020000#32, 0x003E0007#32⟩
  | .sub .. => ⟨"SUB", 0x00040000#32, 0x003E0007#32⟩
  | .sbb .. => ⟨"SBB", 0x00060000#32, 0x003E0007#32⟩
  | .xor .. => ⟨"XOR", 0x00100000#32, 0x003E0007#32⟩
  | .or .. => ⟨"OR", 0x00120000#32, 0x003E0007#32⟩
  | .and .. => ⟨"AND", 0x00140000#32, 0x003E0007#32⟩
  | .andnot .. => ⟨"ANDNOT", 0x00160000#32, 0x003E0007#32⟩
  | .nand .. => ⟨"NAND", 0x00180000#32, 0x003E0007#32⟩
  | .aluReserved47 .. => ⟨"ALU_RESERVED_4_7", 0x00080000#32, 0x00380007#32⟩
  | .aluUnrecognised13 .. => ⟨"ALU_UNRECOGNISED_13", 0x001A0000#32, 0x003E0007#32⟩
  | .aluUnrecognised1415 .. => ⟨"ALU_UNRECOGNISED_14_15", 0x001C0000#32, 0x003C0007#32⟩
  | .aluUnrecognised1631 .. => ⟨"ALU_UNRECOGNISED_16_31", 0x00200000#32, 0x00200007#32⟩
  | .addi .. => ⟨"ADDI", 0x00000001#32, 0x00000007#32⟩
  | .extins .. => ⟨"EXTINS", 0x00000002#32, 0x00000007#32⟩
  | .extshli .. => ⟨"EXTSHLI", 0x00000003#32, 0x00000007#32⟩
  | .extshlr .. => ⟨"EXTSHLR", 0x00000004#32, 0x00000007#32⟩
  | .read .. => ⟨"READ", 0x00000005#32, 0x00000007#32⟩
  | .rsvd .. => ⟨"RSVD", 0x00000006#32, 0x00000007#32⟩
  | .bz .. => ⟨"BZ", 0x00000007#32, 0x00000017#32⟩
  | .bnz .. => ⟨"BNZ", 0x00000017#32, 0x00000017#32⟩

/-- The rows of the table. -/
def tableRows : List Row :=
  [rowOf (.add .move false 0 0 0), rowOf (.adc .move false 0 0 0), rowOf (.sub .move false 0 0 0),
    rowOf (.sbb .move false 0 0 0), rowOf (.xor .move false 0 0 0), rowOf (.or .move false 0 0 0),
    rowOf (.and .move false 0 0 0), rowOf (.andnot .move false 0 0 0),
    rowOf (.nand .move false 0 0 0), rowOf (.aluReserved47 .move false 0 0),
    rowOf (.aluUnrecognised13 .move false 0 0), rowOf (.aluUnrecognised1415 .move false 0 0),
    rowOf (.aluUnrecognised1631 .move false 0 0), rowOf (.addi .move false 0 0 0),
    rowOf (.extins .move false 0 0 0 0 0 0), rowOf (.extshli .move false 0 0 0 0 0),
    rowOf (.extshlr .move false 0 0 0 0 0), rowOf (.read .move false 0 0 0), rowOf (.rsvd false 0),
    rowOf (.bz false 0 0), rowOf (.bnz false 0 0)]

/-! ## The shape of a rule of 41_alu.md and 42_immediate_bitfield.md -/

/-- The register fields of a word, given to a constructor that takes them (30_encoding.md R71). -/
def fromFields {α : Type} (ctor : ResultOp → Bool → RegIdx → RegIdx → α) (w : Word) : α :=
  ctor (ResultOp.ofCode (w.extractLsb' 4 3)) (w.getLsbD 7) (w.extractLsb' 8 3) (w.extractLsb' 11 3)

/-- The words of operation 0 with an `alu_op` decode to `ctor` of their fields. -/
def AluEncoding (code : Nat) (ctor : ResultOp → Bool → RegIdx → RegIdx → RegIdx → Instr) : Prop :=
  ∀ w : Word, w.extractLsb' 0 3 = 0#3 → (w.extractLsb' 17 5).toNat = code →
    decode w = fromFields ctor w (w.extractLsb' 14 3)

/-- An instruction whose value is `v` and which leaves the flag `c`: where its result operation finds the
parameter it fetches, it completes; where not, it raises PARAMETER_UNDERFLOW and nothing else of the
state changes. -/
def Produces (i : Instr) (rop : ResultOp) (x : Bool) (d : RegIdx) (v : Word) (c : Bool)
    (s : State) : Prop :=
  (CanFetch rop s → ∃ t, exec i s = .next t ∧ Completes rop x d v c [] s t ∧ KeepsOracle s t) ∧
  (fetches rop = true → s.params.length ≤ s.cursor →
    exec i s = .next { s with status := .error (.parameterUnderflow s.cursor) })

/-- The rule of an ALU function: its words, and its value and flag from the operands `x[src_a]`,
`x[src_b]` in a state. -/
def AluRule (code : Nat) (ctor : ResultOp → Bool → RegIdx → RegIdx → RegIdx → Instr)
    (value : State → Word → Word → Word) (flag : State → Word → Word → Bool) : Prop :=
  AluEncoding code ctor ∧
  ∀ rop x d a b s,
    Produces (ctor rop x d a b) rop x d (value s (s.reg a) (s.reg b)) (flag s (s.reg a) (s.reg b)) s

/-- The rule of a logic function: its words, its value bit by bit, and carry unchanged. -/
def LogicRule (code : Nat) (ctor : ResultOp → Bool → RegIdx → RegIdx → RegIdx → Instr)
    (bit : Bool → Bool → Bool) : Prop :=
  AluEncoding code ctor ∧
  ∀ rop x d a b s, ∃ v : Word,
    (∀ n < 32, v.getLsbD n = bit ((s.reg a).getLsbD n) ((s.reg b).getLsbD n)) ∧
    Produces (ctor rop x d a b) rop x d v s.carry s

/-- Bit `n` of `((b >> right) & (2^size - 1)) << left` (R143, R144). -/
def shiftedBit (b : Word) (right size left n : Nat) : Bool :=
  decide (left ≤ n) && decide (n - left < size) && b.getLsbD (right + (n - left))

/-- Bit `n` of the value of EXTRACT_INSERT: inside `[dst, dst + size)` the field of `b`, else `a` (R142). -/
def insertedBit (a b : Word) (src size dst n : Nat) : Bool :=
  if dst ≤ n ∧ n < dst + size then b.getLsbD (src + (n - dst)) else a.getLsbD n

/-- `sext_18(w[31:14])` as an integer added to a word modulo 2^32 (30_encoding.md R77). -/
def plusImm (v : Word) (imm : Imm18) (scale : Int) : Word :=
  BitVec.ofInt 32 ((v.toNat : Int) + imm.toInt * scale)

/-- The answer the next register read gets: the host's, else a free value. -/
def readAnswer (s : State) : Word := s.answers.headD (Config.freeWord s.draws)

/-- The free values taken by one register read. -/
def readDraws (s : State) : Nat := if s.answers = [] then s.draws + 1 else s.draws

/-- The event is a method call. -/
def isCall : Event → Bool
  | .call _ _ => true
  | .read _ _ => false
  | .diag _ _ => false

/-- The event is a read of the register bank. -/
def isBankRead : Event → Bool
  | .read _ _ => true
  | .call _ _ => false
  | .diag _ _ => false

/-- The result operation an instruction applies in `s`: none for BRANCH and RESERVED, and for an
unrecognised ALU code only in the mode `RESULT_ZERO` (41_alu.md R130). -/
def resultOpIn (s : State) : Instr → Option ResultOp
  | .add r _ _ _ _ | .adc r _ _ _ _ | .sub r _ _ _ _ | .sbb r _ _ _ _ | .xor r _ _ _ _
  | .or r _ _ _ _ | .and r _ _ _ _ | .andnot r _ _ _ _ | .nand r _ _ _ _ => some r
  | .aluReserved47 r _ _ _ | .aluUnrecognised13 r _ _ _ | .aluUnrecognised1415 r _ _ _
  | .aluUnrecognised1631 r _ _ _ => if s.cfg.unknownAlu = .resultZero then some r else none
  | .addi r _ _ _ _ | .read r _ _ _ _ => some r
  | .extins r _ _ _ _ _ _ _ => some r
  | .extshli r _ _ _ _ _ _ => some r
  | .extshlr r _ _ _ _ _ _ => some r
  | .rsvd _ _ | .bz _ _ _ | .bnz _ _ _ => none

/-! ## The invariant -/

/-- What holds in every state the machine reaches (10_state.md R20, R23, R26, R31, 70 R241): the storage
behind R0 is 0, `pc` and a pending target are word-aligned, the cursor is within the parameters, the
code store is canonical, and a finished run has consumed its parameters and ended in an exit's delay
slot. -/
structure MachineInv (s : State) : Prop where
  zero : s.x[0] = 0#32
  pc_aligned : s.pc.toNat % 4 = 0
  target_aligned : ∀ target, s.slot = .branchDelay target → target.toNat % 4 = 0
  cursor_le : s.cursor ≤ s.params.length
  memory_wf : s.memory.wf
  done_consumed : s.status = .done → s.cursor = s.params.length ∧ s.slot = .exitDelay

end Sys2Proof.Safety
end

