-- ==== Sys2Proof/Certificates/Slice0/Obligations.lean ====
section
/-! DEFINITION. The statements for the provers. Each docstring names the rule or section it formalises;
where the spec marks a point as its own decision (Dn) or the model chose (log n), it says so. -/

open Sys2Proof Sys2Proof.Machine Sys2Proof.Safety

/-! ## Encoding -/

/-- 30_encoding.md section 7 (the codes are D1): decoding the word of a well-formed instruction gives
the instruction back, with every operand at every value. The rows that log their word carry it, which is
the model's choice (log 14). -/
def Obligations.DecodeOfEncodeIsIdentity : Prop :=
  ∀ i : Instr, i.wf = true → decode (encode i) = i

/-- 30_encoding.md sections 4 and 5: every word decodes, and to a well-formed instruction. -/
def Obligations.EveryWordDecodesWellFormed : Prop :=
  ∀ w : Word, (decode w).wf = true

/-- 30_encoding.md section 4: encoding what a word decodes to keeps the bits its operation reads and
assembles the others as 0. The rows that log their word (RESERVED and the unrecognised ALU codes) keep all
32 bits: their constructors carry the word and `encode` gives it back, which is the model's choice
(log 14; R80 lets RESERVED read only `w[2:0]` and `w[7]`, and R85 and R87 assemble its other bits as 0:
that word is `assemble`'s, see `AssembleOfDecodeKeepsFieldBits`). -/
def Obligations.EncodeOfDecodeKeepsReadBits : Prop :=
  ∀ w : Word, encode (decode w) = w &&& readBits (decode w)

/-- 30_encoding.md section 4: words that differ only in bits their operation does not read decode to
the same instruction (operations that log no word). -/
def Obligations.UnreadBitsDoNotMatter : Prop :=
  ∀ w w' : Word, logsWord (decode w) = false →
    w &&& readBits (decode w) = w' &&& readBits (decode w) → decode w' = decode w

/-- spec/opcode_table.json and the opening of 30_encoding.md: every word belongs to exactly one row of
the table, and it is the row of the instruction it decodes to. -/
def Obligations.EachWordBelongsToItsOneRow : Prop :=
  ∀ w : Word, ∀ r ∈ tableRows, r.covers w = true ↔ r = rowOf (decode w)

/-- 95_test_vectors.md section 3.1: one word of every format, decoded by hand. -/
def Obligations.HandDecodedWords : Prop :=
  decode 0x00008B10#32 = .add .move false 3 1 2 ∧
  decode 0x001A8B10#32 = .aluUnrecognised13 .move false 3 0x001A8B10#32 ∧
  decode 0xFFFFCB11#32 = .addi .move false 3 1 0x3FFFF ∧
  decode 0x82088B12#32 = .extins .move false 3 1 2 4 8 16 ∧
  decode 0x22008B13#32 = .extshli .move false 3 1 2 8 4 ∧
  decode 0x02088B14#32 = .extshlr .move false 3 1 2 4 8 ∧
  decode 0x00040B15#32 = .read .move false 3 1 0x10 ∧
  decode 0x00000096#32 = .rsvd true 0x00000096#32 ∧
  decode 0xFFFF0837#32 = .bnz true 1 0x3FFFC

/-! ## What each instruction does -/

/-- R121, ADD: its words, value, carry, and errors. -/
def Obligations.AddGivesSumAndCarryOut : Prop :=
  AluRule 0 .add (fun _ a b => a + b) (fun _ a b => decide (2 ^ 32 ≤ a.toNat + b.toNat))

/-- 41_alu.md section 2, ADC (its carry-out is marked derived there). -/
def Obligations.AdcAddsTheCarry : Prop :=
  AluRule 1 .adc (fun s a b => a + b + if s.carry then 1#32 else 0#32)
    (fun s a b => decide (2 ^ 32 ≤ a.toNat + b.toNat + if s.carry then 1 else 0))

/-- 41_alu.md section 2, SUB, in both settings of SUB_CARRY_MODE (D7). -/
def Obligations.SubGivesDifferenceAndBorrow : Prop :=
  AluRule 2 .sub (fun _ a b => a - b)
    (fun s a b => match s.cfg.subCarry with
      | .borrow => decide (a.toNat < b.toNat)
      | .notBorrow => decide (b.toNat ≤ a.toNat))

/-- 41_alu.md section 2, SBB, in both settings of SUB_CARRY_MODE (D7): the borrow taken in is `carry`, or
its complement. -/
def Obligations.SbbSubtractsTheBorrow : Prop :=
  AluRule 3 .sbb
    (fun s a b => a - b - if s.carry = decide (s.cfg.subCarry = .borrow) then 1#32 else 0#32)
    (fun s a b => match s.cfg.subCarry with
      | .borrow => decide (a.toNat < b.toNat + if s.carry then 1 else 0)
      | .notBorrow => decide ((b.toNat + if s.carry then 0 else 1) ≤ a.toNat))

/-- 41_alu.md section 3 (the formulas are D33): the logic functions, bit by bit on 32 bits, with carry
unchanged. -/
def Obligations.LogicFunctionsAreBitwise : Prop :=
  LogicRule 8 .xor (fun p q => p ^^ q) ∧
  LogicRule 9 .or (fun p q => p || q) ∧
  LogicRule 10 .and (fun p q => p && q) ∧
  LogicRule 11 .andnot (fun p q => p && !q) ∧
  LogicRule 12 .nand (fun p q => !(p && q))

/-- 41_alu.md section 4, mode NOP (the event is D15, `is_exit` D14): an ALU code that names no function
logs its word and does nothing else but sequencing. -/
def Obligations.UnknownAluCodeOnlyLogs : Prop :=
  ∀ rop x d w s, s.cfg.unknownAlu = .nop →
    ∀ i ∈ [Instr.aluReserved47 rop x d w, .aluUnrecognised13 rop x d w,
      .aluUnrecognised1415 rop x d w, .aluUnrecognised1631 rop x d w],
    ∃ t, exec i s = .next t ∧ OnlyLogs x [.diag s.pc w] s t

/-- 41_alu.md section 4, mode RESULT_ZERO (D28): the event, then the result operation on 0; an underflow
keeps the event (60_exceptions.md section 3, D12). -/
def Obligations.UnknownAluCodeDeliversZero : Prop :=
  ∀ rop x d w s, s.cfg.unknownAlu = .resultZero →
    ∀ i ∈ [Instr.aluReserved47 rop x d w, .aluUnrecognised13 rop x d w,
      .aluUnrecognised1415 rop x d w, .aluUnrecognised1631 rop x d w],
    (CanFetch rop s → ∃ t, exec i s = .next t ∧
      Completes rop x d 0#32 s.carry [.diag s.pc w] s t ∧ KeepsOracle s t) ∧
    (fetches rop = true → s.params.length ≤ s.cursor →
      exec i s = .next { s with
        status := .error (.parameterUnderflow s.cursor), trace := s.trace ++ [.diag s.pc w] })

/-- R140, ADD_IMM: its words, its value `x[src_a] + sext_18(imm)` modulo 2^32, carry unchanged, and
errors. -/
def Obligations.AddImmediateAddsSignedField : Prop :=
  (∀ w : Word, w.extractLsb' 0 3 = 1#3 → decode w = fromFields Instr.addi w (w.extractLsb' 14 18)) ∧
  ∀ rop x d a imm s,
    Produces (.addi rop x d a imm) rop x d (plusImm (s.reg a) imm 1) s.carry s

/-- 42_immediate_bitfield.md sections 2 and 3, EXTRACT_INSERT: its words and its value bit by bit (the
truncation to 32 bits is marked derived there). -/
def Obligations.ExtractInsertPlacesField : Prop :=
  (∀ w : Word, w.extractLsb' 0 3 = 2#3 → decode w =
    fromFields Instr.extins w (w.extractLsb' 14 3) (w.extractLsb' 17 5) (w.extractLsb' 22 5)
      (w.extractLsb' 27 5)) ∧
  ∀ rop x d a b srcBit size dstBit s, ∃ v : Word,
    (∀ n < 32, v.getLsbD n =
      insertedBit (s.reg a) (s.reg b) srcBit.toNat size.toNat dstBit.toNat n) ∧
    Produces (.extins rop x d a b srcBit size dstBit) rop x d v s.carry s

/-- 42_immediate_bitfield.md section 4, EXTRACT_SHL_IMM, for a shift amount below 32: its words and its
value bit by bit. -/
def Obligations.ExtractShlImmShiftsByRegister : Prop :=
  (∀ w : Word, w.extractLsb' 0 3 = 3#3 → decode w =
    fromFields Instr.extshli w (w.extractLsb' 14 3) (w.extractLsb' 22 5) (w.extractLsb' 27 5)) ∧
  ∀ rop x d a b size dstBit s, (s.reg a).toNat < 32 → ∃ v : Word,
    (∀ n < 32, v.getLsbD n =
      shiftedBit (s.reg b) (s.reg a).toNat size.toNat dstBit.toNat n) ∧
    Produces (.extshli rop x d a b size dstBit) rop x d v s.carry s

/-- 42_immediate_bitfield.md section 5, EXTRACT_SHL_REG, for a shift amount below 32: its words and its
value bit by bit. -/
def Obligations.ExtractShlRegShiftsByRegister : Prop :=
  (∀ w : Word, w.extractLsb' 0 3 = 4#3 → decode w =
    fromFields Instr.extshlr w (w.extractLsb' 14 3) (w.extractLsb' 17 5) (w.extractLsb' 22 5)) ∧
  ∀ rop x d a b srcBit size s, (s.reg a).toNat < 32 → ∃ v : Word,
    (∀ n < 32, v.getLsbD n =
      shiftedBit (s.reg b) srcBit.toNat size.toNat (s.reg a).toNat n) ∧
    Produces (.extshlr rop x d a b srcBit size) rop x d v s.carry s

/-- 42_immediate_bitfield.md section 6 (D8), LARGE_SHIFT_MODE = DRAW: a shift amount of 32 or more makes
the value a free value (log 6), the next one the counter gives; the statement is for every value of the
counter. Everything else is as the instruction's rule says. -/
def Obligations.LargeShiftDrawsFreeValue : Prop :=
  ∀ rop x d a b f g s, 32 ≤ (s.reg a).toNat → s.cfg.largeShift = .draw →
    ∀ i ∈ [Instr.extshli rop x d a b f g, .extshlr rop x d a b f g],
    (CanFetch rop s → ∃ t, exec i s = .next t ∧
      Completes rop x d (Config.freeWord s.draws) s.carry [] s t ∧
      t.answers = s.answers ∧ t.draws = s.draws + 1) ∧
    (fetches rop = true → s.params.length ≤ s.cursor →
      exec i s = .next { s with
        status := .error (.parameterUnderflow s.cursor), draws := s.draws + 1 })

/-- 42_immediate_bitfield.md section 6 (D8), LARGE_SHIFT_MODE = MOD32: the amount is taken modulo 32. -/
def Obligations.LargeShiftModulo32 : Prop :=
  ∀ rop x d a b f g s, 32 ≤ (s.reg a).toNat → s.cfg.largeShift = .mod32 →
    (∃ v : Word, (∀ n < 32, v.getLsbD n =
        shiftedBit (s.reg b) ((s.reg a).toNat % 32) f.toNat g.toNat n) ∧
      Produces (.extshli rop x d a b f g) rop x d v s.carry s) ∧
    (∃ v : Word, (∀ n < 32, v.getLsbD n =
        shiftedBit (s.reg b) f.toNat g.toNat ((s.reg a).toNat % 32) n) ∧
      Produces (.extshlr rop x d a b f g) rop x d v s.carry s)

/-- 43_read.md, READ: its words; an index below NUM_GPU_REGS reads the bank, logs the read and delivers
the answer; an index at or above it raises REGISTER_OUT_OF_RANGE. The answer is the environment's (D10); that
it is the host's next one, else a free value, is the model's choice (log 5), and the statement is for
every one. An underflow after the read keeps the event (D12), and that the answer stays taken is the model's
(log 11). -/
def Obligations.ReadDeliversBankAnswer : Prop :=
  (∀ w : Word, w.extractLsb' 0 3 = 5#3 → decode w = fromFields Instr.read w (w.extractLsb' 14 18)) ∧
  ∀ rop x d a imm s,
    ((plusImm (s.reg a) imm 1).toNat < s.cfg.numGpuRegs →
      (CanFetch rop s → ∃ t, exec (.read rop x d a imm) s = .next t ∧
        Completes rop x d (readAnswer s) s.carry
          [.read (plusImm (s.reg a) imm 1) (readAnswer s)] s t ∧
        t.answers = s.answers.tail ∧ t.draws = readDraws s) ∧
      (fetches rop = true → s.params.length ≤ s.cursor →
        exec (.read rop x d a imm) s = .next { s with
          status := .error (.parameterUnderflow s.cursor)
          trace := s.trace ++ [.read (plusImm (s.reg a) imm 1) (readAnswer s)]
          answers := s.answers.tail
          draws := readDraws s })) ∧
    (s.cfg.numGpuRegs ≤ (plusImm (s.reg a) imm 1).toNat →
      exec (.read rop x d a imm) s = .next { s with
        status := .error (.registerOutOfRange (plusImm (s.reg a) imm 1)) })

/-- 40_sequencer.md section 3, RESERVED (the event is D15, `is_exit` D14): its words, and nothing but a
diagnostic and sequencing. -/
def Obligations.ReservedOnlyLogs : Prop :=
  (∀ w : Word, w.extractLsb' 0 3 = 6#3 → decode w = .rsvd (w.getLsbD 7) w) ∧
  ∀ x w s, ∃ t, exec (.rsvd x w) s = .next t ∧ OnlyLogs x [.diag s.pc w] s t

/-- R170 (with the words of BRANCH and the target of 44_branch.md): outside a delay slot a branch falls
through, jumps, or sets the pending target, by its condition and annul bit; it changes nothing else, and
its target is never checked. -/
def Obligations.BranchByConditionAndAnnul : Prop :=
  (∀ w : Word, w.extractLsb' 0 3 = 7#3 → decode w =
    (if w.getLsbD 4 then Instr.bnz else Instr.bz) (w.getLsbD 5) (w.extractLsb' 11 3)
      (w.extractLsb' 14 18)) ∧
  ∀ annul a imm s, s.slot = .none →
    exec (.bz annul a imm) s = .next
      (if s.reg a ≠ 0#32 then { s with pc := s.pc + 4#32 }
      else if annul then { s with pc := plusImm s.pc imm 4 }
      else { s with pc := s.pc + 4#32, slot := .branchDelay (plusImm s.pc imm 4) }) ∧
    exec (.bnz annul a imm) s = .next
      (if s.reg a = 0#32 then { s with pc := s.pc + 4#32 }
      else if annul then { s with pc := plusImm s.pc imm 4 }
      else { s with pc := s.pc + 4#32, slot := .branchDelay (plusImm s.pc imm 4) })

/-- R189 and R190: a send calls the method at `maddr.address`, advances the address by the increment
modulo 2^12, leaves bits 31:12 and everything else, changes nothing of `maddr` where the increment is 0;
and an instruction sends at most once. -/
def Obligations.SendCallsThenAdvances : Prop :=
  (∀ (v : Word) (s : State), ∃ m : Word,
    send v s = { s with
      maddr := m
      trace := s.trace ++ [.call ((s.maddr.extractLsb' 0 12).setWidth 32) v] } ∧
    (m.extractLsb' 0 12).toNat =
      ((s.maddr.extractLsb' 0 12).toNat + (s.maddr.extractLsb' 12 6).toNat) % 4096 ∧
    m.extractLsb' 12 20 = s.maddr.extractLsb' 12 20 ∧
    (s.maddr.extractLsb' 12 6 = 0#6 → m = s.maddr)) ∧
  ∀ i s t, exec i s = .next t →
    (t.trace.filter isCall).length ≤ (s.trace.filter isCall).length + 1

/-! ## Sequencing -/

/-- 40_sequencer.md section 1: a step of a running core whose pc is in the body is the decoded
instruction. -/
def Obligations.StepRunsDecodedInstruction : Prop :=
  ∀ (s : State) (w : Word), s.status = .running → s.body[s.pc.toNat / 4]? = some w →
    (decode w).wf = true ∧ step s = exec (decode w) s

/-- 20_memory.md section 2 (D5): a fetch at `pc >= 4 * N` is the error FETCH_OUT_OF_RANGE, and nothing
but the status changes. -/
def Obligations.FetchOutsideBodyIsError : Prop :=
  ∀ s : State, s.status = .running → 4 * s.body.length ≤ s.pc.toNat →
    step s = .next { s with status := .error (.fetchOutOfRange s.pc) }

/-- 10_state.md section 6, DONE and ERROR are final; that a step of an ended core is a fault of the model
is its choice (log 10). -/
def Obligations.EndedCoreDoesNotStep : Prop :=
  ∀ s : State, s.status ≠ .running → step s = .fault .notRunning

/-- 40_sequencer.md section 1 (R104): a BRANCH word fetched in a delay slot of either kind raises
BAD_DELAY_SLOT, whatever its condition, annul bit and register; nothing but the status changes (D12). The
fetch comes first: where the slot has no word, the error is FETCH_OUT_OF_RANGE, the spec's own (D5), in
the order of 60_exceptions.md section 3 (R209, marked derived there). -/
def Obligations.BranchInDelaySlotRaises : Prop :=
  (∀ annul a imm s, s.slot ≠ .none →
    exec (.bz annul a imm) s = .next { s with status := .error (.badDelaySlot s.pc) } ∧
    exec (.bnz annul a imm) s = .next { s with status := .error (.badDelaySlot s.pc) }) ∧
  ∀ s : State, s.slot ≠ .none → s.status = .running →
    (∀ w : Word, s.body[s.pc.toNat / 4]? = some w → w.extractLsb' 0 3 = 7#3 →
      step s = .next { s with status := .error (.badDelaySlot s.pc) }) ∧
    (4 * s.body.length ≤ s.pc.toNat →
      step s = .next { s with status := .error (.fetchOutOfRange s.pc) })

/-- 40_sequencer.md section 1: `pc`, `slot` and `status` after an instruction that raised nothing, by the
slot it was fetched in (a branch's decision and target are `BranchByConditionAndAnnul`'s). -/
def Obligations.SlotDecidesWhatFollows : Prop :=
  ∀ i s t, exec i s = .next t → s.status = .running → ¬ Raised t →
    match s.slot with
    | .exitDelay => t.pc = s.pc + 4#32 ∧ t.slot = .exitDelay ∧ t.status ≠ .running
    | .branchDelay target => t.pc = target ∧ t.slot = .none ∧ t.status = .running
    | .none => t.status = .running ∧
      if isBranch i then
        t.slot = .none ∨ (t.pc = s.pc + 4#32 ∧ ∃ target, t.slot = .branchDelay target)
      else t.pc = s.pc + 4#32 ∧ t.slot = if exitBit i then .exitDelay else .none

/-- R107: in a delay slot of either kind the `is_exit` bit has no effect. -/
def Obligations.ExitBitIgnoredInDelaySlot : Prop :=
  ∀ i s x, s.slot ≠ .none → exec (withExitBit x i) s = exec i s

/-- 40_sequencer.md section 2 (D14 for RESERVED and unrecognised codes): an exit instruction outside a
delay slot leaves the core running; the one instruction after it, at the next word, ends the run. -/
def Obligations.ExitRunsExactlyOneMore : Prop :=
  ∀ i j s t u, s.status = .running → s.slot = .none → exitBit i = true →
    exec i s = .next t → ¬ Raised t → exec j t = .next u → ¬ Raised u →
    t.status = .running ∧ t.pc = s.pc + 4#32 ∧
      (u.status = .done ∨ u.status = .error (.parameterLeftover u.cursor))

/-- R108: the delay slot of an exit ends DONE exactly where the cursor equals the parameter count, else
PARAMETER_LEFTOVER with the cursor; the trace issued before stands, and a cursor past the count does not
come about. -/
def Obligations.FinishChecksParameterCount : Prop :=
  ∀ i s t, s.slot = .exitDelay → exec i s = .next t → ¬ Raised t →
    (t.status = if t.cursor = s.params.length then .done else .error (.parameterLeftover t.cursor)) ∧
    s.trace <+: t.trace ∧
    (s.cursor ≤ s.params.length → t.cursor ≤ s.params.length)

/-- 44_branch.md section on a taken branch with a delay slot, and 40_sequencer.md section 1: the word at
`base + 4` runs next, and after it control is at the target with no slot pending. -/
def Obligations.TakenBranchRunsSlotThenTarget : Prop :=
  ∀ nonzero a imm s j t u, s.status = .running → s.slot = .none →
    (s.reg a = 0#32 ↔ nonzero = false) →
    exec (if nonzero then .bnz false a imm else .bz false a imm) s = .next t →
    exec j t = .next u → ¬ Raised u →
    t.pc = s.pc + 4#32 ∧ isBranch j = false ∧ u.pc = plusImm s.pc imm 4 ∧ u.slot = .none ∧
      u.status = .running

/-! ## Errors -/

/-- 60_exceptions.md section 3 (D12): a step that raises writes no register, carry, maddr, cursor, pc or
slot, and every event issued before the raise stays. -/
def Obligations.ErrorsArePrecise : Prop :=
  ∀ s t, step s = .next t → Raised t → KeepsCore s t ∧ s.trace <+: t.trace

/-- 60_exceptions.md section 2 (the codes are D34): a step raises only the kinds with codes 1, 2, 3, 4
and 6. -/
def Obligations.StepRaisesOnlyCoreKinds : Prop :=
  ∀ s t e, step s = .next t → t.status = .error e → e.code ∈ [1, 2, 3, 4, 6]

/-- 60_exceptions.md section 2 (R205) and 43_read.md (R161): READ with an index at or above NUM_GPU_REGS
raises REGISTER_OUT_OF_RANGE before the bank is called: only the status changes (D12), so the trace has no
event of it and no answer is taken. The error comes only from there. No other instruction reaches the
register space: none appends a read event or takes an answer (that the answers are a list in State is the
model's choice, logs 1 and 5). -/
def Obligations.RangeErrorOnlyFromRead : Prop :=
  (∀ rop x d a imm s, s.cfg.numGpuRegs ≤ (plusImm (s.reg a) imm 1).toNat →
    exec (.read rop x d a imm) s = .next { s with
      status := .error (.registerOutOfRange (plusImm (s.reg a) imm 1)) }) ∧
  (∀ i s t index, s.status = .running → exec i s = .next t →
    t.status = .error (.registerOutOfRange index) →
    t.trace = s.trace ∧ t.answers = s.answers ∧ t.draws = s.draws ∧
      s.cfg.numGpuRegs ≤ index.toNat ∧
      ∃ rop x d a imm, i = .read rop x d a imm ∧ index = plusImm (s.reg a) imm 1) ∧
  ∀ i s t, isRead i = false → exec i s = .next t →
    t.answers = s.answers ∧ t.trace.filter isBankRead = s.trace.filter isBankRead

/-- 60_exceptions.md section 2: PARAMETER_UNDERFLOW comes only from a fetching result operation with the
cursor at the end, and records the cursor. -/
def Obligations.UnderflowOnlyFromFetching : Prop :=
  ∀ i s t n, s.status = .running → exec i s = .next t →
    t.status = .error (.parameterUnderflow n) →
    n = s.cursor ∧ s.params.length ≤ s.cursor ∧
      ∃ rop, resultOpIn s i = some rop ∧ fetches rop = true

/-! ## The whole machine -/

/-- 10_state.md sections 1, 2, 5 and 7, 70_reset_and_hazards.md section 4: every step keeps the
invariant, from every state that has it. -/
def Obligations.StepKeepsInvariant : Prop :=
  ∀ s t, MachineInv s → step s = .next t → MachineInv t

/-- The invariant holds at reset (with the model's inputs at reset, log 2). -/
def Obligations.ResetHasInvariant : Prop :=
  MachineInv State.reset

/-- 20_memory.md section 2, 70_reset_and_hazards.md section 1: the host's operations keep the invariant:
installing, starting an invocation, and the return of a callee (log 13). -/
def Obligations.HostKeepsInvariant : Prop :=
  ∀ s, MachineInv s → (∀ id w, MachineInv (s.install id w)) ∧
    (∀ entry params answers, MachineInv (s.invoke entry params answers)) ∧
    ∀ nested, MachineInv nested → MachineInv (s.calleeReturns nested)

/-- R31: register 0 reads 0, the cursor never exceeds the parameter count, a slot pending is never
followed by another while the core runs, and a send keeps the increment. -/
def Obligations.SourceInvariantsHold : Prop :=
  ∀ s t, s.cursor ≤ s.params.length → step s = .next t →
    t.reg 0#3 = 0#32 ∧ t.cursor ≤ t.params.length ∧
    (s.slot ≠ .none → t.status = .running → t.slot = .none) ∧
    ∀ v, (send v s).maddr.extractLsb' 12 6 = s.maddr.extractLsb' 12 6

/-- 10_state.md section 7 and 20_memory.md sections 2 and 8 (D16 for the body): no step changes the
parameters of the implementation, the body, the parameter words or the code store. -/
def Obligations.StepKeepsInputs : Prop :=
  ∀ s t, step s = .next t → KeepsInputs s t

/-- 20_memory.md sections 5 and 8: a step only appends to the trace, at most two events, at most one of
them a call. -/
def Obligations.TraceOnlyGrows : Prop :=
  ∀ s t, step s = .next t → ∃ new, t.trace = s.trace ++ new ∧ new.length ≤ 2 ∧
    (new.filter isCall).length ≤ 1

/-- 10_state.md section 1: an instruction writes no register but its destination, and RESERVED and BRANCH
write none. -/
def Obligations.OnlyDestinationIsWritten : Prop :=
  ∀ i s t r, exec i s = .next t → destination i ≠ some r → t.reg r = s.reg r

/-- 10_state.md section 3: only ADD, ADC, SUB and SBB write carry. -/
def Obligations.CarryWrittenOnlyByArithmetic : Prop :=
  ∀ i s t, exec i s = .next t → writesCarry i = false → t.carry = s.carry

/-- 10_state.md section 3: only ADC and SBB read carry: for any other instruction two states that differ
in carry alone lead to states that differ in carry alone. -/
def Obligations.CarryReadOnlyByAdcSbb : Prop :=
  ∀ i s t c, readsCarry i = false → exec i s = .next t →
    ∃ c', exec i { s with carry := c } = .next { t with carry := c' }

/-- 10_state.md section 4 (D19): bits 31:18 of `maddr` are never read: two states that differ in them
alone lead to states that differ in them alone. -/
def Obligations.UpperMethodBitsAreNeverRead : Prop :=
  ∀ i s t m, m.extractLsb' 0 18 = s.maddr.extractLsb' 0 18 → exec i s = .next t →
    ∃ m' : Word, m'.extractLsb' 0 18 = t.maddr.extractLsb' 0 18 ∧
      exec i { s with maddr := m } = .next { t with maddr := m' }

/-- 10_state.md section 5: the cursor moves by one or not at all, and moves only where the instruction
has a fetching result operation. -/
def Obligations.CursorMovesByFetchesOnly : Prop :=
  ∀ i s t, exec i s = .next t →
    t.cursor = s.cursor ∨
      (t.cursor = s.cursor + 1 ∧ ∃ rop, resultOpIn s i = some rop ∧ fetches rop = true)

/-! ## Start and code store -/

/-- 10_state.md section 8 (D4 for `pc`): the start values. The empty body, the parameter vector [0], the
absent answers and the value of NUM_GPU_REGS are the model's (logs 2, 3, 5). -/
def Obligations.ResetIsInvocationStart : Prop :=
  (∀ i, State.reset.reg i = if i = 1#3 then State.reset.params.headD 0#32 else 0#32) ∧
  State.reset.pc = 0#32 ∧ State.reset.carry = false ∧ State.reset.maddr = 0#32 ∧
  State.reset.cursor = 1 ∧ State.reset.slot = .none ∧ State.reset.status = .running ∧
  State.reset.trace = [] ∧ State.reset.memory = []

/-- 70_reset_and_hazards.md section 1 (D4 for `pc`, D17 for the choice of body): an invocation whose
entry has a body and which has a parameter starts in the pre-state, on one of the bodies. -/
def Obligations.InvokeSetsPreState : Prop :=
  ∀ (s : State) entry p rest answers, s.memory.bodies entry ≠ [] →
    ∃ t, s.invoke entry (p :: rest) answers = t ∧
      t.body ∈ s.memory.bodies entry ∧ t.params = p :: rest ∧ t.answers = answers ∧
      (∀ i, t.reg i = if i = 1#3 then p else 0#32) ∧
      t.pc = 0#32 ∧ t.carry = false ∧ t.maddr = 0#32 ∧ t.cursor = 1 ∧ t.slot = .none ∧
      t.status = .running ∧ t.trace = [] ∧ t.memory = s.memory ∧ t.cfg = s.cfg

/-- 60_exceptions.md section 2 (D13 for the empty parameter vector): an entry without a body is
UNKNOWN_MACRO; else an empty parameter vector is PARAMETER_UNDERFLOW(0). Both have an empty trace; that
the rest of the state is as it was is the model's (log 12). -/
def Obligations.InvokeErrorsBeforeStart : Prop :=
  ∀ (s : State) entry params answers,
    (s.memory.bodies entry = [] → s.invoke entry params answers =
      { s with trace := [], status := .error (.unknownMacro entry) }) ∧
    (s.memory.bodies entry ≠ [] → s.invoke entry [] answers =
      { s with trace := [], status := .error (.parameterUnderflow 0) })

/-- R29: nothing of an invocation survives into the next: engines with the same code store, parameters of
the implementation and environment start the same invocation in the same state. -/
def Obligations.NoStateSurvivesAnInvocation : Prop :=
  ∀ (s s' : State) entry params answers, s.memory = s'.memory → s.cfg = s'.cfg → s.draws = s'.draws →
    (s.invoke entry params answers).status = .running →
    s.invoke entry params answers = s'.invoke entry params answers

/-- R41: `append` pushes one word onto the vector of its id and leaves the other vectors; `body_for`
returns the vector of the id itself, else the tail of a matching key; where none matches the invocation
is UNKNOWN_MACRO with no event; else the body it runs is the one returned, and word `k` of it is at byte
offset `4 * k`. -/
def Obligations.CodeStoreAppendAndBodyFor : Prop :=
  (∀ (m : Memory) (id : Nat) (w : Word), m.wf →
    (∀ k, (m.append id w).vec k =
      if k = id then some ((m.vec id).getD [] ++ [w]) else m.vec k) ∧
    ∀ entry body, body ∈ m.bodies entry ↔
      m.vec entry = some body ∨
        (m.vec entry = none ∧ ∃ k v, m.vec k = some v ∧ k < entry ∧ entry - k < v.length ∧
          body = v.drop (entry - k))) ∧
  (∀ (s : State) entry params answers,
    (s.memory.bodies entry = [] →
      (s.invoke entry params answers).status = .error (.unknownMacro entry) ∧
      (s.invoke entry params answers).trace = []) ∧
    (s.memory.bodies entry ≠ [] → params ≠ [] →
      (s.invoke entry params answers).body ∈ s.memory.bodies entry)) ∧
  ∀ (s : State) (k : Nat) (w : Word), s.pc.toNat = 4 * k → s.body[k]? = some w → fetch s = .ok w

/-- 20_memory.md sections 2 and 8 (D16): words installed during an invocation do not reach it: a step
after an install is the install after the step. -/
def Obligations.InstallDoesNotReachRunningInvocation : Prop :=
  ∀ (s : State) id w, step (s.install id w) = match step s with
    | .next t => .next (t.install id w)
    | .fault f => .fault f
    | .refused r => .refused r

/-- 20_memory.md section 8 (D18; log 13): when a re-entrant callee returns, the suspended invocation has
all of its own state and fetches what it would have fetched. -/
def Obligations.CalleeCannotReachSuspendedInvocation : Prop :=
  ∀ outer nested : State,
    { outer.calleeReturns nested with memory := outer.memory, draws := outer.draws } = outer ∧
    fetch (outer.calleeReturns nested) = fetch outer

/-! ## Assembling -/

/-- 30_encoding.md section 6 (R87, marked derived there, and R85 for the ALU codes that name no function):
the assembled word of every instruction is the formula of its format. -/
def Obligations.AssembledWordIsTheFormula : Prop :=
  ∀ i : Instr, (assemble i).toNat = formula i

/-- 30_encoding.md sections 1, 4 and 6 (R72, R80, R85): assembling what a word decodes to keeps exactly the
bits the word's operation reads, for RESERVED and the unrecognised ALU codes too. -/
def Obligations.AssembleOfDecodeKeepsFieldBits : Prop :=
  ∀ w : Word, assemble (decode w) = w &&& fieldBits (decode w)

/-- 30_encoding.md sections 5 and 6: the assembled word of a well-formed instruction decodes to the
instruction up to its carried word. RESERVED and the unrecognised ALU codes come back carrying the
assembled word in place of their own, since their form holds a word (the model's choice, log 14); every
other instruction comes back as it is. -/
def Obligations.DecodeOfAssembleUpToCarriedWord : Prop :=
  ∀ i : Instr, i.wf = true → decode (assemble i) = withWord (assemble i) i
end

