-- ==== Sys2Proof/Laws/Arith.lean ====
section
/-! SUPPORT. The narrowings of exact results as word arithmetic, and bit-field values bit by bit. -/

namespace Sys2Proof.Machine

open Sys2Proof.Safety

/-- The narrowed exact sum. -/
theorem ofNat_exactSum (a b : Word) (cin : Bool) :
    BitVec.ofNat 32 (exactSum a b cin) = a + b + if cin then 1#32 else 0#32 := by
  cases cin <;> simp [exactSum, BitVec.ofNat_add]

/-- The narrowed exact difference. -/
theorem ofInt_exactDiff (a b : Word) (k : Bool) :
    BitVec.ofInt 32 (exactDiff a b k) = a - b - if k then 1#32 else 0#32 := by
  have narrow : BitVec.ofInt 32 (exactDiff a b k) =
      BitVec.ofInt 32 (a.toNat : Int) + -BitVec.ofInt 32 (b.toNat : Int) +
        -BitVec.ofInt 32 (k.toNat : Int) := by
    rw [← BitVec.ofInt_neg, ← BitVec.ofInt_neg, ← BitVec.ofInt_add, ← BitVec.ofInt_add]
    congr 1
  rw [narrow, BitVec.ofInt_natCast, BitVec.ofInt_natCast, BitVec.ofInt_natCast]
  cases k <;> simp [BitVec.sub_eq_add_neg]

/-- A word plus a scaled sign-extended immediate. -/
theorem plusImm_eq (v : Word) (imm : Imm18) (scale : Int) :
    plusImm v imm scale = v + sext18 imm * BitVec.ofInt 32 scale := by
  unfold plusImm
  rw [BitVec.ofInt_add, BitVec.ofInt_mul, BitVec.ofInt_natCast, BitVec.ofNat_toNat,
    BitVec.setWidth_eq]
  rfl

/-- The sum of ADD_IMM and of READ's index. -/
theorem add_sext18 (v : Word) (imm : Imm18) : v + sext18 imm = plusImm v imm 1 := by
  rw [plusImm_eq, show BitVec.ofInt 32 (1 : Int) = 1#32 from rfl, BitVec.mul_one]

/-- The target of a branch. -/
theorem branchTarget_eq (base : Word) (imm : Imm18) : branchTarget base imm = plusImm base imm 4 := by
  rw [plusImm_eq]
  rfl

/-- The bits of the mask. -/
theorem getLsbD_bitfieldMask (size : Field5) (i : Nat) :
    (bitfieldMask size).getLsbD i = decide (i < size.toNat) := by
  have := size.isLt
  rw [bitfieldMask, BitVec.getLsbD_ofNat, Nat.testBit_two_pow_sub_one]
  by_cases h : i < size.toNat
  · simp [h, show i < 32 by omega]
  · simp [h]

/-- The value of the two EXTRACT_SHL operations, bit by bit. -/
theorem getLsbD_extractShift (b : Word) (right : Nat) (size : Field5) (left n : Nat) (h : n < 32) :
    (extractShift b right size left).getLsbD n = shiftedBit b right size.toNat left n := by
  simp only [extractShift, shiftedBit, BitVec.getLsbD_shiftLeft, BitVec.getLsbD_and,
    BitVec.getLsbD_ushiftRight, getLsbD_bitfieldMask]
  by_cases low : left ≤ n
  · simp [h, low, Nat.not_lt.mpr low, Bool.and_comm]
  · simp [low, Nat.not_le.mp low]

/-- The value of EXTRACT_INSERT, bit by bit. -/
theorem getLsbD_insertField (a b : Word) (srcBit size dstBit : Field5) (n : Nat) (h : n < 32) :
    (insertField a b srcBit size dstBit).getLsbD n =
      insertedBit a b srcBit.toNat size.toNat dstBit.toNat n := by
  simp only [insertField, insertedBit, BitVec.getLsbD_or, BitVec.getLsbD_and, BitVec.getLsbD_not,
    BitVec.getLsbD_shiftLeft, BitVec.getLsbD_ushiftRight, getLsbD_bitfieldMask]
  by_cases low : dstBit.toNat ≤ n
  · by_cases high : n - dstBit.toNat < size.toNat
    · have : n < dstBit.toNat + size.toNat := by omega
      simp [h, low, Nat.not_lt.mpr low, high, this]
    · have : ¬ n < dstBit.toNat + size.toNat := by omega
      simp [h, high, this]
  · simp [h, low, Nat.not_le.mp low]

end Sys2Proof.Machine
end

