-- ==== Sys2Proof/Laws/Encode.lean ====
section
/-! SUPPORT. The bits of an encoded word, and the bits of a word as the bits of its fields. -/

namespace Sys2Proof

/-- The bits of a placed field. -/
theorem getLsbD_place {n : Nat} (v : BitVec n) (lo i : Nat) :
    (place v lo).getLsbD i = (decide (i < 32) && decide (lo ≤ i) && v.getLsbD (i - lo)) := by
  simp only [place, BitVec.getLsbD_shiftLeft, BitVec.getLsbD_setWidth]
  by_cases h : i < 32
  · by_cases k : lo ≤ i
    · have : i - lo < 32 := by omega
      simp [h, k, Nat.not_lt.mpr k, this]
    · simp [k, Nat.not_le.mp k]
  · simp [h]

/-- Placing a field above the bits of `acc` adds the field at its place. -/
theorem toNat_or_place {n : Nat} {acc : Word} (v : BitVec n) (lo : Nat) (fits : lo + n ≤ 32)
    (above : acc.toNat < 2 ^ lo) :
    (acc ||| place v lo).toNat = acc.toNat + v.toNat * 2 ^ lo := by
  have small : v.toNat * 2 ^ lo < 2 ^ 32 :=
    calc v.toNat * 2 ^ lo < 2 ^ n * 2 ^ lo := Nat.mul_lt_mul_of_pos_right v.isLt (by positivity)
      _ = 2 ^ (lo + n) := by rw [Nat.pow_add, Nat.mul_comm]
      _ ≤ 2 ^ 32 := Nat.pow_le_pow_right (by decide) fits
  have narrow : v.toNat % 2 ^ 32 = v.toNat :=
    Nat.mod_eq_of_lt (Nat.lt_of_le_of_lt (Nat.le_mul_of_pos_right _ (by positivity)) small)
  rw [BitVec.toNat_or, place, BitVec.toNat_shiftLeft, BitVec.toNat_setWidth, narrow,
    Nat.shiftLeft_eq, Nat.mod_eq_of_lt small, Nat.or_comm, Nat.mul_comm v.toNat,
    ← Nat.two_pow_add_eq_or_of_lt above, Nat.add_comm]

/-- Bits 2:0 of a word are its operation's. -/
theorem getLsbD_operation (w : Word) {i : Nat} (h : i < 3) :
    w.getLsbD i = (fieldOperation w).getLsbD i := by
  simp [fieldOperation, h]

/-- Bits 21:17 of a word are its ALU code's. -/
theorem getLsbD_aluOp (w : Word) {i : Nat} (h : i < 5) :
    w.getLsbD (17 + i) = (fieldAluOp w).getLsbD i := by
  simp [fieldAluOp, h]

/-- A masked word, bit by bit. -/
theorem masked_eq {w mask pattern : Word}
    (h : ∀ i < 32, (w.getLsbD i && mask.getLsbD i) = pattern.getLsbD i) : w &&& mask = pattern := by
  apply BitVec.eq_of_getLsbD_eq
  intro i hi
  rw [BitVec.getLsbD_and, h i hi]

end Sys2Proof
end

