-- ==== Sys2Proof/Laws/State.lean ====
section
/-! SUPPORT. One lemma per field per update of the state, each true by unfolding. -/

namespace Sys2Proof.Machine

/-! ## `State.setReg` -/

@[simp] theorem State.setReg_cfg (s : State) (i : RegIdx) (v : Word) : (s.setReg i v).cfg = s.cfg := rfl
@[simp] theorem State.setReg_memory (s : State) (i : RegIdx) (v : Word) : (s.setReg i v).memory = s.memory := rfl
@[simp] theorem State.setReg_body (s : State) (i : RegIdx) (v : Word) : (s.setReg i v).body = s.body := rfl
@[simp] theorem State.setReg_params (s : State) (i : RegIdx) (v : Word) : (s.setReg i v).params = s.params := rfl
@[simp] theorem State.setReg_answers (s : State) (i : RegIdx) (v : Word) : (s.setReg i v).answers = s.answers := rfl
@[simp] theorem State.setReg_draws (s : State) (i : RegIdx) (v : Word) : (s.setReg i v).draws = s.draws := rfl
@[simp] theorem State.setReg_x (s : State) (i : RegIdx) (v : Word) : (s.setReg i v).x = writeReg s.x i v := rfl
@[simp] theorem State.setReg_pc (s : State) (i : RegIdx) (v : Word) : (s.setReg i v).pc = s.pc := rfl
@[simp] theorem State.setReg_carry (s : State) (i : RegIdx) (v : Word) : (s.setReg i v).carry = s.carry := rfl
@[simp] theorem State.setReg_maddr (s : State) (i : RegIdx) (v : Word) : (s.setReg i v).maddr = s.maddr := rfl
@[simp] theorem State.setReg_cursor (s : State) (i : RegIdx) (v : Word) : (s.setReg i v).cursor = s.cursor := rfl
@[simp] theorem State.setReg_slot (s : State) (i : RegIdx) (v : Word) : (s.setReg i v).slot = s.slot := rfl
@[simp] theorem State.setReg_status (s : State) (i : RegIdx) (v : Word) : (s.setReg i v).status = s.status := rfl
@[simp] theorem State.setReg_trace (s : State) (i : RegIdx) (v : Word) : (s.setReg i v).trace = s.trace := rfl

/-! ## `State.setCarry` -/

@[simp] theorem State.setCarry_cfg (s : State) (c : Option Bool) : (s.setCarry c).cfg = s.cfg := rfl
@[simp] theorem State.setCarry_memory (s : State) (c : Option Bool) : (s.setCarry c).memory = s.memory := rfl
@[simp] theorem State.setCarry_body (s : State) (c : Option Bool) : (s.setCarry c).body = s.body := rfl
@[simp] theorem State.setCarry_params (s : State) (c : Option Bool) : (s.setCarry c).params = s.params := rfl
@[simp] theorem State.setCarry_answers (s : State) (c : Option Bool) : (s.setCarry c).answers = s.answers := rfl
@[simp] theorem State.setCarry_draws (s : State) (c : Option Bool) : (s.setCarry c).draws = s.draws := rfl
@[simp] theorem State.setCarry_x (s : State) (c : Option Bool) : (s.setCarry c).x = s.x := rfl
@[simp] theorem State.setCarry_pc (s : State) (c : Option Bool) : (s.setCarry c).pc = s.pc := rfl
@[simp] theorem State.setCarry_carry (s : State) (c : Option Bool) : (s.setCarry c).carry = c.getD s.carry := rfl
@[simp] theorem State.setCarry_maddr (s : State) (c : Option Bool) : (s.setCarry c).maddr = s.maddr := rfl
@[simp] theorem State.setCarry_cursor (s : State) (c : Option Bool) : (s.setCarry c).cursor = s.cursor := rfl
@[simp] theorem State.setCarry_slot (s : State) (c : Option Bool) : (s.setCarry c).slot = s.slot := rfl
@[simp] theorem State.setCarry_status (s : State) (c : Option Bool) : (s.setCarry c).status = s.status := rfl
@[simp] theorem State.setCarry_trace (s : State) (c : Option Bool) : (s.setCarry c).trace = s.trace := rfl

/-! ## `State.setMaddr` -/

@[simp] theorem State.setMaddr_cfg (s : State) (v : Word) : (s.setMaddr v).cfg = s.cfg := rfl
@[simp] theorem State.setMaddr_memory (s : State) (v : Word) : (s.setMaddr v).memory = s.memory := rfl
@[simp] theorem State.setMaddr_body (s : State) (v : Word) : (s.setMaddr v).body = s.body := rfl
@[simp] theorem State.setMaddr_params (s : State) (v : Word) : (s.setMaddr v).params = s.params := rfl
@[simp] theorem State.setMaddr_answers (s : State) (v : Word) : (s.setMaddr v).answers = s.answers := rfl
@[simp] theorem State.setMaddr_draws (s : State) (v : Word) : (s.setMaddr v).draws = s.draws := rfl
@[simp] theorem State.setMaddr_x (s : State) (v : Word) : (s.setMaddr v).x = s.x := rfl
@[simp] theorem State.setMaddr_pc (s : State) (v : Word) : (s.setMaddr v).pc = s.pc := rfl
@[simp] theorem State.setMaddr_carry (s : State) (v : Word) : (s.setMaddr v).carry = s.carry := rfl
@[simp] theorem State.setMaddr_maddr (s : State) (v : Word) : (s.setMaddr v).maddr = v := rfl
@[simp] theorem State.setMaddr_cursor (s : State) (v : Word) : (s.setMaddr v).cursor = s.cursor := rfl
@[simp] theorem State.setMaddr_slot (s : State) (v : Word) : (s.setMaddr v).slot = s.slot := rfl
@[simp] theorem State.setMaddr_status (s : State) (v : Word) : (s.setMaddr v).status = s.status := rfl
@[simp] theorem State.setMaddr_trace (s : State) (v : Word) : (s.setMaddr v).trace = s.trace := rfl

/-! ## `State.emit` -/

@[simp] theorem State.emit_cfg (s : State) (e : Event) : (s.emit e).cfg = s.cfg := rfl
@[simp] theorem State.emit_memory (s : State) (e : Event) : (s.emit e).memory = s.memory := rfl
@[simp] theorem State.emit_body (s : State) (e : Event) : (s.emit e).body = s.body := rfl
@[simp] theorem State.emit_params (s : State) (e : Event) : (s.emit e).params = s.params := rfl
@[simp] theorem State.emit_answers (s : State) (e : Event) : (s.emit e).answers = s.answers := rfl
@[simp] theorem State.emit_draws (s : State) (e : Event) : (s.emit e).draws = s.draws := rfl
@[simp] theorem State.emit_x (s : State) (e : Event) : (s.emit e).x = s.x := rfl
@[simp] theorem State.emit_pc (s : State) (e : Event) : (s.emit e).pc = s.pc := rfl
@[simp] theorem State.emit_carry (s : State) (e : Event) : (s.emit e).carry = s.carry := rfl
@[simp] theorem State.emit_maddr (s : State) (e : Event) : (s.emit e).maddr = s.maddr := rfl
@[simp] theorem State.emit_cursor (s : State) (e : Event) : (s.emit e).cursor = s.cursor := rfl
@[simp] theorem State.emit_slot (s : State) (e : Event) : (s.emit e).slot = s.slot := rfl
@[simp] theorem State.emit_status (s : State) (e : Event) : (s.emit e).status = s.status := rfl
@[simp] theorem State.emit_trace (s : State) (e : Event) : (s.emit e).trace = s.trace ++ [e] := rfl

/-! ## `State.install` -/

@[simp] theorem State.install_cfg (s : State) (id : Nat) (w : Word) : (s.install id w).cfg = s.cfg := rfl
@[simp] theorem State.install_memory (s : State) (id : Nat) (w : Word) : (s.install id w).memory = s.memory.append id w := rfl
@[simp] theorem State.install_body (s : State) (id : Nat) (w : Word) : (s.install id w).body = s.body := rfl
@[simp] theorem State.install_params (s : State) (id : Nat) (w : Word) : (s.install id w).params = s.params := rfl
@[simp] theorem State.install_answers (s : State) (id : Nat) (w : Word) : (s.install id w).answers = s.answers := rfl
@[simp] theorem State.install_draws (s : State) (id : Nat) (w : Word) : (s.install id w).draws = s.draws := rfl
@[simp] theorem State.install_x (s : State) (id : Nat) (w : Word) : (s.install id w).x = s.x := rfl
@[simp] theorem State.install_pc (s : State) (id : Nat) (w : Word) : (s.install id w).pc = s.pc := rfl
@[simp] theorem State.install_carry (s : State) (id : Nat) (w : Word) : (s.install id w).carry = s.carry := rfl
@[simp] theorem State.install_maddr (s : State) (id : Nat) (w : Word) : (s.install id w).maddr = s.maddr := rfl
@[simp] theorem State.install_cursor (s : State) (id : Nat) (w : Word) : (s.install id w).cursor = s.cursor := rfl
@[simp] theorem State.install_slot (s : State) (id : Nat) (w : Word) : (s.install id w).slot = s.slot := rfl
@[simp] theorem State.install_status (s : State) (id : Nat) (w : Word) : (s.install id w).status = s.status := rfl
@[simp] theorem State.install_trace (s : State) (id : Nat) (w : Word) : (s.install id w).trace = s.trace := rfl

/-! ## `State.calleeReturns` -/

@[simp] theorem State.calleeReturns_cfg (s : State) (n : State) : (s.calleeReturns n).cfg = s.cfg := rfl
@[simp] theorem State.calleeReturns_memory (s : State) (n : State) : (s.calleeReturns n).memory = n.memory := rfl
@[simp] theorem State.calleeReturns_body (s : State) (n : State) : (s.calleeReturns n).body = s.body := rfl
@[simp] theorem State.calleeReturns_params (s : State) (n : State) : (s.calleeReturns n).params = s.params := rfl
@[simp] theorem State.calleeReturns_answers (s : State) (n : State) : (s.calleeReturns n).answers = s.answers := rfl
@[simp] theorem State.calleeReturns_draws (s : State) (n : State) : (s.calleeReturns n).draws = n.draws := rfl
@[simp] theorem State.calleeReturns_x (s : State) (n : State) : (s.calleeReturns n).x = s.x := rfl
@[simp] theorem State.calleeReturns_pc (s : State) (n : State) : (s.calleeReturns n).pc = s.pc := rfl
@[simp] theorem State.calleeReturns_carry (s : State) (n : State) : (s.calleeReturns n).carry = s.carry := rfl
@[simp] theorem State.calleeReturns_maddr (s : State) (n : State) : (s.calleeReturns n).maddr = s.maddr := rfl
@[simp] theorem State.calleeReturns_cursor (s : State) (n : State) : (s.calleeReturns n).cursor = s.cursor := rfl
@[simp] theorem State.calleeReturns_slot (s : State) (n : State) : (s.calleeReturns n).slot = s.slot := rfl
@[simp] theorem State.calleeReturns_status (s : State) (n : State) : (s.calleeReturns n).status = s.status := rfl
@[simp] theorem State.calleeReturns_trace (s : State) (n : State) : (s.calleeReturns n).trace = s.trace := rfl

/-! ## `send` -/

@[simp] theorem send_cfg (v : Word) (s : State) : (send v s).cfg = s.cfg := rfl
@[simp] theorem send_memory (v : Word) (s : State) : (send v s).memory = s.memory := rfl
@[simp] theorem send_body (v : Word) (s : State) : (send v s).body = s.body := rfl
@[simp] theorem send_params (v : Word) (s : State) : (send v s).params = s.params := rfl
@[simp] theorem send_answers (v : Word) (s : State) : (send v s).answers = s.answers := rfl
@[simp] theorem send_draws (v : Word) (s : State) : (send v s).draws = s.draws := rfl
@[simp] theorem send_x (v : Word) (s : State) : (send v s).x = s.x := rfl
@[simp] theorem send_pc (v : Word) (s : State) : (send v s).pc = s.pc := rfl
@[simp] theorem send_carry (v : Word) (s : State) : (send v s).carry = s.carry := rfl
@[simp] theorem send_maddr (v : Word) (s : State) : (send v s).maddr = advanceMethod s.maddr := rfl
@[simp] theorem send_cursor (v : Word) (s : State) : (send v s).cursor = s.cursor := rfl
@[simp] theorem send_slot (v : Word) (s : State) : (send v s).slot = s.slot := rfl
@[simp] theorem send_status (v : Word) (s : State) : (send v s).status = s.status := rfl
@[simp] theorem send_trace (v : Word) (s : State) :
    (send v s).trace = s.trace ++ [.call ((methodAddress s.maddr).setWidth 32) v] := rfl

/-! ## `raise` -/

@[simp] theorem raise_cfg (e : ErrorKind) (s t : State) : (raise e s t).cfg = s.cfg := rfl
@[simp] theorem raise_memory (e : ErrorKind) (s t : State) : (raise e s t).memory = s.memory := rfl
@[simp] theorem raise_body (e : ErrorKind) (s t : State) : (raise e s t).body = s.body := rfl
@[simp] theorem raise_params (e : ErrorKind) (s t : State) : (raise e s t).params = s.params := rfl
@[simp] theorem raise_answers (e : ErrorKind) (s t : State) :
    (raise e s t).answers = t.answers := rfl
@[simp] theorem raise_draws (e : ErrorKind) (s t : State) : (raise e s t).draws = t.draws := rfl
@[simp] theorem raise_x (e : ErrorKind) (s t : State) : (raise e s t).x = s.x := rfl
@[simp] theorem raise_pc (e : ErrorKind) (s t : State) : (raise e s t).pc = s.pc := rfl
@[simp] theorem raise_carry (e : ErrorKind) (s t : State) : (raise e s t).carry = s.carry := rfl
@[simp] theorem raise_maddr (e : ErrorKind) (s t : State) : (raise e s t).maddr = s.maddr := rfl
@[simp] theorem raise_cursor (e : ErrorKind) (s t : State) : (raise e s t).cursor = s.cursor := rfl
@[simp] theorem raise_slot (e : ErrorKind) (s t : State) : (raise e s t).slot = s.slot := rfl
@[simp] theorem raise_status (e : ErrorKind) (s t : State) : (raise e s t).status = .error e := rfl
@[simp] theorem raise_trace (e : ErrorKind) (s t : State) : (raise e s t).trace = t.trace := rfl

/-! ## `finish` -/

@[simp] theorem finish_cfg (s : State) : (finish s).cfg = s.cfg := rfl
@[simp] theorem finish_memory (s : State) : (finish s).memory = s.memory := rfl
@[simp] theorem finish_body (s : State) : (finish s).body = s.body := rfl
@[simp] theorem finish_params (s : State) : (finish s).params = s.params := rfl
@[simp] theorem finish_answers (s : State) : (finish s).answers = s.answers := rfl
@[simp] theorem finish_draws (s : State) : (finish s).draws = s.draws := rfl
@[simp] theorem finish_x (s : State) : (finish s).x = s.x := rfl
@[simp] theorem finish_pc (s : State) : (finish s).pc = s.pc := rfl
@[simp] theorem finish_carry (s : State) : (finish s).carry = s.carry := rfl
@[simp] theorem finish_maddr (s : State) : (finish s).maddr = s.maddr := rfl
@[simp] theorem finish_cursor (s : State) : (finish s).cursor = s.cursor := rfl
@[simp] theorem finish_slot (s : State) : (finish s).slot = s.slot := rfl
@[simp] theorem finish_status (s : State) :
    (finish s).status = if s.cursor = s.params.length then .done else .error (.parameterLeftover s.cursor) := rfl
@[simp] theorem finish_trace (s : State) : (finish s).trace = s.trace := rfl

/-! ## Reading a register through an update of something else -/

@[simp] theorem State.setCarry_reg (s : State) (c : Option Bool) (r : RegIdx) : (s.setCarry c).reg r = s.reg r := rfl
@[simp] theorem State.setMaddr_reg (s : State) (v : Word) (r : RegIdx) : (s.setMaddr v).reg r = s.reg r := rfl
@[simp] theorem State.emit_reg (s : State) (e : Event) (r : RegIdx) : (s.emit e).reg r = s.reg r := rfl
@[simp] theorem State.install_reg (s : State) (id : Nat) (w : Word) (r : RegIdx) : (s.install id w).reg r = s.reg r := rfl
@[simp] theorem State.calleeReturns_reg (s : State) (n : State) (r : RegIdx) : (s.calleeReturns n).reg r = s.reg r := rfl
@[simp] theorem send_reg (v : Word) (s : State) (r : RegIdx) : (send v s).reg r = s.reg r := rfl
@[simp] theorem raise_reg (e : ErrorKind) (s t : State) (r : RegIdx) : (raise e s t).reg r = s.reg r := rfl
@[simp] theorem finish_reg (s : State) (r : RegIdx) : (finish s).reg r = s.reg r := rfl

end Sys2Proof.Machine
end

