-- ==== Sys2Proof/Laws/Ops.lean ====
section
/-! SUPPORT. What each shared operation does, said once. -/

namespace Sys2Proof.Machine

open Sys2Proof.Safety

/-! ## Registers -/

@[simp] theorem State.reg_zero (s : State) : s.reg 0#3 = 0#32 := by simp [State.reg]

/-- A read depends on the register array alone. -/
theorem State.reg_congr {s t : State} (h : t.x = s.x) (i : RegIdx) : t.reg i = s.reg i := by
  simp [State.reg, h]

/-- A read after a write: the value written, except through R0. -/
theorem State.reg_setReg (s : State) (i j : RegIdx) (v : Word) :
    (s.setReg i v).reg j = if j = i ∧ i ≠ 0#3 then v else s.reg j := by
  unfold State.reg State.setReg writeReg
  by_cases h : i = 0#3 <;> by_cases k : j = i <;> by_cases l : j = 0#3 <;>
    simp_all [Vector.getElem_set]
  intro same
  exact absurd (BitVec.eq_of_toNat_eq same).symm k

/-- No write reaches the storage behind R0. -/
@[simp] theorem writeReg_hidden (x : Vector Word 8) (i : RegIdx) (v : Word) :
    (writeReg x i v)[0] = x[0] := by
  unfold writeReg
  split
  · rfl
  · rename_i h
    have : i.toNat ≠ 0 := fun hz => h (BitVec.eq_of_toNat_eq (by simpa using hz))
    simp [this]

/-! ## The method-address register -/

/-- The bits of `maddr` after a send. -/
theorem getLsbD_advanceMethod (m : Word) (i : Nat) :
    (advanceMethod m).getLsbD i =
      if i < 12 then (methodAddress m + (methodIncrement m).setWidth 12).getLsbD i
      else m.getLsbD i := by
  refine (BitVec.getLsbD_append (x := m.extractLsb' 12 20)
    (y := methodAddress m + (methodIncrement m).setWidth 12) (i := i)).trans ?_
  by_cases low : i < 12
  · simp [low]
  · simp only [low, if_false, BitVec.getLsbD_extractLsb']
    by_cases high : i - 12 < 20
    · simp only [high, decide_true, Bool.true_and]
      congr 1
      omega
    · simp only [high, decide_false, Bool.false_and]
      rw [BitVec.getLsbD_of_ge]
      omega

/-- A send leaves bits 31:12 of `maddr`, the increment among them. -/
theorem advanceMethod_upper (m : Word) :
    (advanceMethod m).extractLsb' 12 20 = m.extractLsb' 12 20 := by
  ext i hi
  simp [getLsbD_advanceMethod]

/-- A send advances the address by the increment modulo 2^12. -/
theorem advanceMethod_address (m : Word) :
    ((advanceMethod m).extractLsb' 0 12).toNat =
      ((m.extractLsb' 0 12).toNat + (m.extractLsb' 12 6).toNat) % 4096 := by
  have low : (advanceMethod m).extractLsb' 0 12 =
      methodAddress m + (methodIncrement m).setWidth 12 := by
    ext i hi
    simp [getLsbD_advanceMethod, hi, BitVec.getLsbD_eq_getElem]
  have inc : ((methodIncrement m).setWidth 12).toNat = (m.extractLsb' 12 6).toNat := by
    have := (m.extractLsb' 12 6).isLt
    rw [BitVec.toNat_setWidth]
    exact Nat.mod_eq_of_lt (by unfold methodIncrement; omega)
  rw [low, BitVec.toNat_add, inc]
  rfl

/-! ## Parameters -/

theorem nextParam_ok {s : State} (h : s.cursor < s.params.length) :
    nextParam s = .ok (nextWord s, { s with cursor := s.cursor + 1 }) := by
  simp [nextParam, nextWord, h]

theorem nextParam_underflow {s : State} (h : s.params.length ≤ s.cursor) :
    nextParam s = .error (.parameterUnderflow s.cursor) := by
  simp [nextParam, h]

/-! ## Result operations -/

/-- What a result operation leaves alone in every case. -/
structure KeepsControl (s t : State) : Prop where
  pc : t.pc = s.pc
  slot : t.slot = s.slot
  status : t.status = s.status
  carry : t.carry = s.carry
  inputs : KeepsInputs s t
  oracle : KeepsOracle s t

/-- The two spellings of `v[17:12]`. -/
theorem incrementBits (v : Word) : (v >>> 12) &&& 0x3F#32 = (v.extractLsb' 12 6).setWidth 32 := by
  apply BitVec.eq_of_toNat_eq
  simp only [BitVec.toNat_and, BitVec.toNat_ushiftRight, BitVec.toNat_setWidth,
    BitVec.extractLsb'_toNat, BitVec.toNat_ofNat]
  rw [show (63 % 2 ^ 32 : Nat) = 2 ^ 6 - 1 from rfl, Nat.and_two_pow_sub_one_eq_mod]
  omega

/-- A state that has the four effects of a result operation has delivered it. -/
theorem delivered_of {rop : ResultOp} {d : RegIdx} {v : Word} {s t : State}
    (x : t.x = writeReg s.x d (if writesParam rop then nextWord s else v))
    (cursor : t.cursor = if fetches rop then s.cursor + 1 else s.cursor)
    (maddr : t.maddr =
      if sends rop then advanceMethod (methodUsed rop v s) else methodUsed rop v s)
    (trace : t.trace = s.trace ++ if sends rop then
      [Event.call ((methodAddress (methodUsed rop v s)).setWidth 32)
        (sentArg rop v (nextWord s))] else []) :
    Delivered rop d v [] s t where
  reg i := by
    rw [← State.reg_setReg]
    exact State.reg_congr (s := s.setReg d _) (by simpa using x) i
  cursor := cursor
  quiet h := by simpa [h] using maddr
  upper h := by rw [maddr, h]; exact advanceMethod_upper _
  address h := by rw [maddr, h]; exact advanceMethod_address _
  trace := by rw [List.append_nil]; exact trace

/-- A result operation that finds the parameter it fetches delivers, and does nothing else. -/
theorem applyResult_ok {rop : ResultOp} {d : RegIdx} {v : Word} {s : State} (h : CanFetch rop s) :
    ∃ t, applyResult rop d v s = .ok t ∧ Delivered rop d v [] s t ∧ KeepsControl s t := by
  have fetched : fetches rop = true →
      nextParam s = .ok (nextWord s, { s with cursor := s.cursor + 1 }) := fun f =>
    nextParam_ok (h f)
  have keeps (x : Vector Word 8) (cursor : Nat) (maddr : Word) (trace : List Event)
      (hidden : x[0] = s.x[0]) :
      KeepsControl s { s with x := x, cursor := cursor, maddr := maddr, trace := trace } :=
    ⟨rfl, rfl, rfl, rfl, ⟨rfl, rfl, rfl, rfl, hidden⟩, ⟨rfl, rfl⟩⟩
  cases rop <;>
    simp only [fetches, forall_const, false_implies, Bool.false_eq_true] at fetched <;>
    simp only [applyResult, fetched, Except.map] <;>
    refine ⟨_, rfl, delivered_of ?_ ?_ ?_ ?_, keeps _ _ _ _ (writeReg_hidden _ _ _)⟩ <;>
    simp [fetches, sends, setsMethod, writesParam, methodUsed, sentArg, incrementBits]

/-- A result operation that fetches with no parameter left raises, whatever else it would do. -/
theorem applyResult_underflow {rop : ResultOp} {d : RegIdx} {v : Word} {s : State}
    (f : fetches rop = true) (h : s.params.length ≤ s.cursor) :
    applyResult rop d v s = .error (.parameterUnderflow s.cursor) := by
  cases rop <;> simp only [fetches, Bool.false_eq_true] at f <;>
    simp [applyResult, nextParam_underflow h, Except.map]

/-! ## The end of an instruction -/

/-- `retire` sequences, and changes nothing but `pc`, `slot` and `status`. -/
theorem retire_sequenced (isExit : Bool) {s t : State} (pc : t.pc = s.pc) (slot : t.slot = s.slot)
    (status : t.status = s.status) (params : t.params = s.params) :
    Sequenced isExit s (retire isExit t) := by
  constructor <;> cases h : s.slot <;> simp [retire, slot, h, pc, status, params]

/-- The parts of the state that `retire` leaves alone. -/
theorem retire_keeps (isExit : Bool) (t : State) :
    ∃ pc slot status,
      retire isExit t = { t with pc := pc, slot := slot, status := status } := by
  unfold retire
  split
  · exact ⟨_, _, t.status, rfl⟩
  · exact ⟨_, _, t.status, rfl⟩
  · exact ⟨_, t.slot, _, rfl⟩

/-- `t` is `s` after the step has logged `pre` and perhaps taken answers or free values. -/
def Ahead (pre : List Event) (s t : State) : Prop :=
  ∃ answers draws, t = { s with trace := s.trace ++ pre, answers := answers, draws := draws }

theorem Ahead.refl (s : State) : Ahead [] s s := ⟨s.answers, s.draws, by simp⟩

theorem Ahead.emit {pre : List Event} {s t : State} (h : Ahead pre s t) (e : Event) :
    Ahead (pre ++ [e]) s (t.emit e) := by
  obtain ⟨answers, draws, rfl⟩ := h
  exact ⟨answers, draws, by simp [State.emit]⟩

/-- An instruction that has its value and finds the parameter it fetches completes. -/
theorem produce_completes {rop : ResultOp} {isExit : Bool} {d : RegIdx} {v : Word}
    {c : Option Bool} {pre : List Event} {s t : State} (ahead : Ahead pre s t)
    (h : CanFetch rop s) :
    ∃ u, produce rop isExit d v c s t = .next u ∧
      Completes rop isExit d v (c.getD s.carry) pre s u ∧
      u.answers = t.answers ∧ u.draws = t.draws := by
  obtain ⟨answers, draws, rfl⟩ := ahead
  obtain ⟨w, apply, delivered, control⟩ := applyResult_ok (d := d) (v := v)
    (s := { s with trace := s.trace ++ pre, answers := answers, draws := draws }) h
  obtain ⟨pc, slot, status, kept⟩ := retire_keeps isExit (w.setCarry c)
  have inputs := control.inputs
  have seq : Sequenced isExit s (retire isExit (w.setCarry c)) :=
    retire_sequenced isExit control.pc control.slot control.status inputs.params
  refine ⟨_, by simp only [produce, apply, Except.map, conclude], ⟨?_, ?_, seq, ?_⟩, ?_, ?_⟩
  · rw [kept]
    exact ⟨delivered.reg, delivered.cursor, delivered.quiet, delivered.upper, delivered.address,
      by
        have trace := delivered.trace
        rw [List.append_nil] at trace
        exact trace⟩
  · rw [kept, State.setCarry_carry, control.carry]
  · rw [kept]
    exact ⟨inputs.cfg, inputs.memory, inputs.body, inputs.params, inputs.hidden⟩
  · rw [kept]
    exact control.oracle.answers
  · rw [kept]
    exact control.oracle.draws

/-- An instruction that has its value and fetches with no parameter left raises. -/
theorem produce_underflow {rop : ResultOp} {isExit : Bool} {d : RegIdx} {v : Word}
    {c : Option Bool} {pre : List Event} {s t : State} (ahead : Ahead pre s t)
    (f : fetches rop = true) (h : s.params.length ≤ s.cursor) :
    produce rop isExit d v c s t = .next (raise (.parameterUnderflow s.cursor) s t) := by
  obtain ⟨answers, draws, rfl⟩ := ahead
  have short := applyResult_underflow (d := d) (v := v) f
    (s := { s with trace := s.trace ++ pre, answers := answers, draws := draws }) h
  simp only [produce, short, Except.map, conclude]

/-- An instruction that only logs. -/
theorem conclude_logs {isExit : Bool} {pre : List Event} {s t : State}
    (eq : t = { s with trace := s.trace ++ pre }) :
    ∃ u, conclude isExit s t (.ok t) = .next u ∧ OnlyLogs isExit pre s u := by
  subst eq
  obtain ⟨pc, slot, status, kept⟩ :=
    retire_keeps isExit { s with trace := s.trace ++ pre }
  have seq : Sequenced isExit s (retire isExit { s with trace := s.trace ++ pre }) :=
    retire_sequenced isExit rfl rfl rfl rfl
  refine ⟨_, rfl, ⟨?_, ?_, ?_, ?_, ?_, seq, ⟨?_, ?_, ?_, ?_, ?_⟩, ⟨?_, ?_⟩⟩⟩ <;> rw [kept]

/-! ## The register bank and the shift draw -/

/-- The value of the next register read (20_memory.md R46). -/
def nextAnswer (s : State) : Word := (bankAnswer s).1

/-- The state after an answer differs in the oracle alone. -/
theorem bankAnswer_ahead (s : State) : Ahead [] s (bankAnswer s).2 := by
  unfold bankAnswer
  split
  · rename_i rest _
    exact ⟨rest, s.draws, by simp⟩
  · exact ⟨s.answers, s.draws + 1, by simp⟩

theorem bankRead_ok {i : Word} {s : State} (h : i.toNat < s.cfg.numGpuRegs) :
    bankRead i s =
      .ok ((bankAnswer s).1, (bankAnswer s).2.emit (.read i (bankAnswer s).1)) := by
  simp [bankRead, Nat.not_le.mpr h]

theorem bankRead_out {i : Word} {s : State} (h : s.cfg.numGpuRegs ≤ i.toNat) :
    bankRead i s = .error (.registerOutOfRange i) := by
  simp [bankRead, h]

/-! ## Fetch -/

theorem fetch_ok {s : State} {w : Word} (h : s.body[s.pc.toNat / 4]? = some w) :
    fetch s = .ok w := by
  simp [fetch, h]

theorem fetch_out {s : State} (h : 4 * s.body.length ≤ s.pc.toNat) :
    fetch s = .error (.fetchOutOfRange s.pc) := by
  have : s.body[s.pc.toNat / 4]? = none := List.getElem?_eq_none (by omega)
  simp [fetch, this]

end Sys2Proof.Machine
end

