-- ==== Sys2Proof/Laws/Exec.lean ====
section
/-! SUPPORT. Everything an instruction, and a step, can do, said once: `exec_effect` and `step_effect`. -/

namespace Sys2Proof.Machine

open Sys2Proof.Safety

/-- Why an instruction `i` run in `s` raises `e`, having logged `pre`. -/
inductive Why (i : Instr) (s : State) : List Event → ErrorKind → Prop where
  /-- BRANCH in a delay slot (40_sequencer.md R104). -/
  | delaySlot (isB : isBranch i = true) (slot : s.slot ≠ .none) : Why i s [] (.badDelaySlot s.pc)
  /-- READ outside the register space (60_exceptions.md R205). -/
  | range (rop : ResultOp) (x : Bool) (d a : RegIdx) (imm : Imm18) (isRead : i = .read rop x d a imm)
      (out : s.cfg.numGpuRegs ≤ (s.reg a + sext18 imm).toNat) :
      Why i s [] (.registerOutOfRange (s.reg a + sext18 imm))
  /-- A fetch with no parameter left (60_exceptions.md R206). -/
  | underflow (rop : ResultOp) (pre : List Event) (op : resultOpIn s i = some rop)
      (fetch : fetches rop = true) (none : s.params.length ≤ s.cursor) :
      Why i s pre (.parameterUnderflow s.cursor)

/-- A reason of an instruction is a step error. -/
theorem Why.kind {i : Instr} {s : State} {pre : List Event} {e : ErrorKind} (h : Why i s pre e) :
    stepError e = true := by
  cases h <;> rfl

/-- A reason of an instruction is no fetch error. -/
theorem Why.notFetch {i : Instr} {s : State} {pre : List Event} {e : ErrorKind}
    (h : Why i s pre e) : e.code ≠ 6 := by
  cases h <;> simp [ErrorKind.code]

/-- An instruction that is not READ has taken no answer of the bank on the way to `t`, and `pre` has no
read. -/
def NoRead (i : Instr) (pre : List Event) (s t : State) : Prop :=
  isRead i = false → t.answers = s.answers ∧ pre.filter isBankRead = []

theorem NoRead.none (i : Instr) (s : State) : NoRead i [] s s := fun _ => ⟨rfl, rfl⟩

/-- The next states an instruction `i` can lead to from `s`. -/
inductive Effect (i : Instr) (s : State) : State → Prop where
  /-- It raises a step error, having logged `pre`. -/
  | raised (e : ErrorKind) (pre : List Event) (t : State) (ahead : Ahead pre s t)
      (noRead : NoRead i pre s t)
      (why : Why i s pre e) (short : pre.length ≤ 1) (quiet : ∀ m v, Event.call m v ∉ pre) :
      Effect i s (raise e s t)
  /-- It completes with its result operation. -/
  | completed (rop : ResultOp) (d : RegIdx) (v : Word) (c : Bool) (pre : List Event) (u : State)
      (notBranch : isBranch i = false) (dst : destination i = some d)
      (op : resultOpIn s i = some rop) (can : CanFetch rop s)
      (flag : writesCarry i = false → c = s.carry)
      (short : pre.length ≤ 1) (quiet : ∀ m v, Event.call m v ∉ pre)
      (noRead : NoRead i pre s u) (done : Completes rop (exitBit i) d v c pre s u) : Effect i s u
  /-- It only logs. -/
  | logged (pre : List Event) (u : State) (notBranch : isBranch i = false)
      (short : pre.length ≤ 1) (quiet : ∀ m v, Event.call m v ∉ pre)
      (noRead : NoRead i pre s u) (done : OnlyLogs (exitBit i) pre s u) : Effect i s u
  /-- It is a branch outside a delay slot. -/
  | branched (hit annul : Bool) (imm : Imm18) (isB : isBranch i = true) (slot : s.slot = .none) :
      Effect i s (takeBranch hit annul (branchTarget s.pc imm) s)

/-- An instruction that has its value: it completes, or underflows. -/
theorem produce_effect {i : Instr} {rop : ResultOp} {d : RegIdx} {v : Word} {c : Option Bool}
    {pre : List Event} {s t : State} (ahead : Ahead pre s t) (noRead : NoRead i pre s t)
    (notBranch : isBranch i = false) (dst : destination i = some d)
    (op : resultOpIn s i = some rop)
    (flag : writesCarry i = false → c = none)
    (short : pre.length ≤ 1) (quiet : ∀ m v, Event.call m v ∉ pre) :
    ∃ u, produce rop (exitBit i) d v c s t = .next u ∧ Effect i s u := by
  by_cases can : CanFetch rop s
  · obtain ⟨u, eq, done, answers, _⟩ := produce_completes (isExit := exitBit i) (d := d) (v := v) (c := c)
      ahead can
    exact ⟨u, eq, .completed rop d v _ pre u notBranch dst op can
      (fun w => by rw [flag w]; rfl) short quiet
      (fun r => ⟨answers.trans (noRead r).1, (noRead r).2⟩) done⟩
  · have f : fetches rop = true ∧ s.params.length ≤ s.cursor := by
      simpa [CanFetch, Nat.not_lt] using can
    exact ⟨_, produce_underflow ahead f.1 f.2,
      .raised _ pre t ahead noRead (.underflow rop pre op f.1 f.2) short quiet⟩

/-- An instruction that only logs. -/
theorem log_effect {i : Instr} {s : State} (e : Event) (notBranch : isBranch i = false)
    (quiet : ∀ m v, Event.call m v ≠ e) (noRead : isBankRead e = false) :
    ∃ u, conclude (exitBit i) s (s.emit e) (.ok (s.emit e)) = .next u ∧ Effect i s u := by
  obtain ⟨u, eq, done⟩ := conclude_logs (isExit := exitBit i) (s := s) (pre := [e])
    (t := s.emit e) rfl
  exact ⟨u, eq, .logged [e] u notBranch (by simp) (by simpa using quiet)
    (fun _ => ⟨done.oracle.answers, by simp [noRead]⟩) done⟩

theorem aluUnknown_effect {i : Instr} {rop : ResultOp} {d : RegIdx} {w : Word} {s : State}
    (notBranch : isBranch i = false) (dst : destination i = some d)
    (op : s.cfg.unknownAlu = .resultZero → resultOpIn s i = some rop) :
    ∃ u, aluUnknown rop (exitBit i) d w s = .next u ∧ Effect i s u := by
  unfold aluUnknown
  cases mode : s.cfg.unknownAlu
  · exact log_effect _ notBranch (by simp) rfl
  · exact produce_effect (Ahead.emit (Ahead.refl s) _) (fun _ => ⟨rfl, rfl⟩) notBranch dst (op mode) (fun _ => rfl) (by simp)
      (by simp)

theorem shiftValue_ahead (amount : Word) (value : Nat → Word) (s : State) :
    Ahead [] s (shiftValue amount value s).2 := by
  unfold shiftValue
  split
  · exact Ahead.refl s
  · cases s.cfg.largeShift
    · exact ⟨s.answers, s.draws + 1, by simp [shiftDraw]⟩
    · exact Ahead.refl s

/-- A shift takes no answer of the register bank. -/
theorem shiftValue_noRead (i : Instr) (amount : Word) (value : Nat → Word) (s : State) :
    NoRead i [] s (shiftValue amount value s).2 := by
  refine fun _ => ⟨?_, rfl⟩
  unfold shiftValue
  split
  · rfl
  · cases s.cfg.largeShift <;> rfl

theorem branch_effect {i : Instr} (nonzero annul : Bool) (a : RegIdx) (imm : Imm18) (s : State)
    (isB : isBranch i = true) :
    ∃ u, branch nonzero annul a imm s = .next u ∧ Effect i s u := by
  unfold branch
  split
  · rename_i slot
    exact ⟨_, rfl, .branched _ annul imm isB slot⟩
  all_goals
    rename_i slot
    exact ⟨_, rfl, .raised _ [] s (Ahead.refl s) (.none i s) (.delaySlot isB (by simp [slot])) (by simp)
      (by simp)⟩

theorem read_effect (rop : ResultOp) (x : Bool) (d a : RegIdx) (imm : Imm18) (s : State) :
    ∃ u, execRead rop x d a imm s = .next u ∧ Effect (.read rop x d a imm) s u := by
  unfold execRead
  by_cases h : (s.reg a + sext18 imm).toNat < s.cfg.numGpuRegs
  · simp only [bankRead_ok h]
    exact produce_effect (i := .read rop x d a imm) (Ahead.emit (bankAnswer_ahead s) _)
      (fun notRead => nomatch notRead) rfl rfl rfl (fun _ => rfl) (by simp) (by simp)
  · simp only [bankRead_out (Nat.not_lt.mp h), conclude]
    exact ⟨_, rfl, .raised _ [] s (Ahead.refl s) (.none _ s)
      (.range rop x d a imm rfl (Nat.not_lt.mp h)) (by simp) (by simp)⟩

/-- Every instruction leads to a next state, by one of the four effects: no instruction faults or is
refused. -/
theorem exec_effect (i : Instr) (s : State) : ∃ u, exec i s = .next u ∧ Effect i s u := by
  cases i with
  | add rop x d a b =>
    exact produce_effect (i := .add rop x d a b) (Ahead.refl s) (.none _ s) rfl rfl rfl (by simp [writesCarry])
      (by simp) (by simp)
  | adc rop x d a b =>
    exact produce_effect (i := .adc rop x d a b) (Ahead.refl s) (.none _ s) rfl rfl rfl (by simp [writesCarry])
      (by simp) (by simp)
  | sub rop x d a b =>
    exact produce_effect (i := .sub rop x d a b) (Ahead.refl s) (.none _ s) rfl rfl rfl (by simp [writesCarry])
      (by simp) (by simp)
  | sbb rop x d a b =>
    exact produce_effect (i := .sbb rop x d a b) (Ahead.refl s) (.none _ s) rfl rfl rfl (by simp [writesCarry])
      (by simp) (by simp)
  | xor rop x d a b =>
    exact produce_effect (i := .xor rop x d a b) (Ahead.refl s) (.none _ s) rfl rfl rfl (fun _ => rfl)
      (by simp) (by simp)
  | or rop x d a b =>
    exact produce_effect (i := .or rop x d a b) (Ahead.refl s) (.none _ s) rfl rfl rfl (fun _ => rfl)
      (by simp) (by simp)
  | and rop x d a b =>
    exact produce_effect (i := .and rop x d a b) (Ahead.refl s) (.none _ s) rfl rfl rfl (fun _ => rfl)
      (by simp) (by simp)
  | andnot rop x d a b =>
    exact produce_effect (i := .andnot rop x d a b) (Ahead.refl s) (.none _ s) rfl rfl rfl (fun _ => rfl)
      (by simp) (by simp)
  | nand rop x d a b =>
    exact produce_effect (i := .nand rop x d a b) (Ahead.refl s) (.none _ s) rfl rfl rfl (fun _ => rfl)
      (by simp) (by simp)
  | aluReserved47 rop x d w => exact aluUnknown_effect (i := .aluReserved47 rop x d w) rfl rfl (by simp +contextual [resultOpIn])
  | aluUnrecognised13 rop x d w =>
    exact aluUnknown_effect (i := .aluUnrecognised13 rop x d w) rfl rfl (by simp +contextual [resultOpIn])
  | aluUnrecognised1415 rop x d w =>
    exact aluUnknown_effect (i := .aluUnrecognised1415 rop x d w) rfl rfl (by simp +contextual [resultOpIn])
  | aluUnrecognised1631 rop x d w =>
    exact aluUnknown_effect (i := .aluUnrecognised1631 rop x d w) rfl rfl (by simp +contextual [resultOpIn])
  | addi rop x d a imm =>
    exact produce_effect (i := .addi rop x d a imm) (Ahead.refl s) (.none _ s) rfl rfl rfl (fun _ => rfl)
      (by simp) (by simp)
  | extins rop x d a b sb sz db =>
    exact produce_effect (i := .extins rop x d a b sb sz db) (Ahead.refl s) (.none _ s) rfl rfl rfl
      (fun _ => rfl) (by simp) (by simp)
  | extshli rop x d a b sz db =>
    exact produce_effect (i := .extshli rop x d a b sz db) (shiftValue_ahead _ _ s)
      (shiftValue_noRead _ _ _ s) rfl rfl rfl
      (fun _ => rfl) (by simp) (by simp)
  | extshlr rop x d a b sb sz =>
    exact produce_effect (i := .extshlr rop x d a b sb sz) (shiftValue_ahead _ _ s)
      (shiftValue_noRead _ _ _ s) rfl rfl rfl
      (fun _ => rfl) (by simp) (by simp)
  | read rop x d a imm => exact read_effect rop x d a imm s
  | rsvd x w => exact log_effect (i := .rsvd x w) _ rfl (by simp) rfl
  | bz annul a imm => exact branch_effect (i := .bz annul a imm) _ _ _ _ _ rfl
  | bnz annul a imm => exact branch_effect (i := .bnz annul a imm) _ _ _ _ _ rfl

/-- The effect of an instruction whose next state is known. -/
theorem effect_of_exec {i : Instr} {s t : State} (h : exec i s = .next t) : Effect i s t := by
  obtain ⟨u, eq, effect⟩ := exec_effect i s
  rw [eq] at h
  cases h
  exact effect

/-- What one step of a running machine is: the decoded instruction, or a fetch error. -/
theorem step_effect {s t : State} (h : step s = .next t) :
    s.status = .running ∧
      ((∃ w, s.body[s.pc.toNat / 4]? = some w ∧ Effect (decode w) s t) ∨
        (4 * s.body.length ≤ s.pc.toNat ∧ t = raise (.fetchOutOfRange s.pc) s s)) := by
  unfold step at h
  cases status : s.status with
  | running =>
    refine ⟨rfl, ?_⟩
    simp only [status] at h
    cases word : s.body[s.pc.toNat / 4]? with
    | some w =>
      rw [fetch_ok word] at h
      exact .inl ⟨w, rfl, effect_of_exec h⟩
    | none =>
      have out : 4 * s.body.length ≤ s.pc.toNat := by
        have := List.getElem?_eq_none_iff.mp word
        omega
      rw [fetch_out out] at h
      cases h
      exact .inr ⟨out, rfl⟩
  | done => simp [status] at h
  | error e => simp [status] at h

end Sys2Proof.Machine
end

