-- ==== Sys2Proof/Laws/Memory.lean ====
section
/-! SUPPORT. The code store keeps its canonical form, and what `append` does to it (20_memory.md R41). -/

namespace Sys2Proof.Machine

/-- The ids of a store after an append: the old ones and the new one. -/
theorem Memory.mem_keys_append (m : Memory) (id : Nat) (w : Word) (k : Nat) :
    k ∈ (m.append id w).map Prod.fst ↔ k = id ∨ k ∈ m.map Prod.fst := by
  induction m with
  | nil => simp [Memory.append]
  | cons kv rest ih =>
    obtain ⟨key, v⟩ := kv
    unfold Memory.append
    split
    · simp
    · split
      · rename_i same
        subst same
        simp
      · simp only [List.map_cons, List.mem_cons, ih]
        tauto

/-- `append` keeps the canonical form. -/
theorem Memory.append_wf {m : Memory} (h : m.wf) (id : Nat) (w : Word) : (m.append id w).wf := by
  induction m with
  | nil => simp [Memory.append, Memory.wf]
  | cons kv rest ih =>
    obtain ⟨key, v⟩ := kv
    simp only [Memory.wf, List.map_cons, List.pairwise_cons] at h
    unfold Memory.append
    split
    · rename_i less
      simp only [Memory.wf, List.map_cons, List.pairwise_cons]
      refine ⟨?_, h⟩
      intro k hk
      rcases List.mem_cons.mp hk with rfl | hk
      · exact less
      · exact Nat.lt_trans less (h.1 k hk)
    · split
      · simpa only [Memory.wf, List.map_cons, List.pairwise_cons] using h
      · rename_i notLess notSame
        simp only [Memory.wf, List.map_cons, List.pairwise_cons]
        refine ⟨?_, ih h.2⟩
        intro k hk
        rcases (Memory.mem_keys_append rest id w k).mp hk with rfl | hk
        · omega
        · exact h.1 k hk

/-- The store at reset is canonical. -/
theorem Memory.reset_wf : State.reset.memory.wf := by simp [State.reset, Memory.wf]

end Sys2Proof.Machine
end

