-- ==== Sys2Proof/Laws/PerInstr.lean ====
section
/-! SUPPORT. Statements made per instruction: the encoding of a well-formed instruction lies in the
instruction's own row of spec/opcode_table.json. -/

namespace Sys2Proof.Laws

open Sys2Proof.Safety

/-- An encoded ALU word is an ALU word with its code, whatever its other fields. -/
theorem encodeAlu_row (alu : Field5) (rop : ResultOp) (x : Bool) (d a b : RegIdx) :
    encodeAlu alu rop x d a b &&& 0x003E0007#32 = place alu 17 := by
  apply masked_eq
  intro i hi
  simp only [encodeAlu, encodeLow, BitVec.getLsbD_or, getLsbD_place]
  interval_cases i <;> simp

/-- An encoded ADD_IMM or READ word carries its operation. -/
theorem encodeImm_row (op : BitVec 3) (rop : ResultOp) (x : Bool) (d a : RegIdx) (imm : Imm18) :
    encodeImm op rop x d a imm &&& 0x00000007#32 = place op 0 := by
  apply masked_eq
  intro i hi
  simp only [encodeImm, encodeLow, BitVec.getLsbD_or, getLsbD_place]
  interval_cases i <;> simp

/-- An encoded EXTRACT word carries its operation. -/
theorem encodeBitfield_row (op : BitVec 3) (rop : ResultOp) (x : Bool) (d a b : RegIdx)
    (sb sz db : Field5) :
    encodeBitfield op rop x d a b sb sz db &&& 0x00000007#32 = place op 0 := by
  apply masked_eq
  intro i hi
  simp only [encodeBitfield, encodeLow, BitVec.getLsbD_or, getLsbD_place]
  interval_cases i <;> simp

/-- An encoded BRANCH word carries its operation and its condition. -/
theorem encodeBranch_row (cond annul : Bool) (a : RegIdx) (imm : Imm18) :
    encodeBranch cond annul a imm &&& 0x00000017#32 =
      place 7#3 0 ||| place (BitVec.ofBool cond) 4 := by
  apply masked_eq
  intro i hi
  simp only [encodeBranch, BitVec.getLsbD_or, getLsbD_place]
  interval_cases i <;> simp

/-- The word an instruction carries lies in a row of the ALU format whose mask and pattern fix the
operation 0 and bits of the ALU code that every code in `lo..hi` has. -/
theorem carriedAlu_row {lo hi : Nat} {rop : ResultOp} {x : Bool} {d : RegIdx} {w : Word}
    {codeMask codePattern : Field5} (h : aluWordAgrees lo hi rop x d w = true)
    (codes : ∀ c : Field5, lo ≤ c.toNat → c.toNat ≤ hi → c &&& codeMask = codePattern) :
    w &&& (place codeMask 17 ||| 7#32) = place codePattern 17 := by
  simp only [aluWordAgrees, Bool.and_eq_true, beq_iff_eq, decide_eq_true_eq] at h
  obtain ⟨⟨⟨⟨⟨op, low⟩, high⟩, -⟩, -⟩, -⟩ := h
  have code := codes _ low high
  have bit (k : Nat) := congrArg (fun v => v.getLsbD k) code
  simp only [BitVec.getLsbD_and] at bit
  apply masked_eq
  intro i hi
  simp only [BitVec.getLsbD_or, getLsbD_place]
  by_cases first : i < 3
  · rw [getLsbD_operation w first, op]
    interval_cases i <;> simp
  · by_cases field : 17 ≤ i ∧ i < 22
    · have same := getLsbD_aluOp w (i := i - 17) (by omega)
      rw [show 17 + (i - 17) = i by omega] at same
      have rest : (7#32).getLsbD i = false := by
        obtain ⟨f1, f2⟩ := field
        interval_cases i <;> rfl
      rw [same, rest, ← bit (i - 17)]
      simp [field.1, hi]
    · have rest : (7#32).getLsbD i = false := by
        interval_cases i <;> rfl
      by_cases above : 17 ≤ i
      · have : 5 ≤ i - 17 := by omega
        simp [rest, BitVec.getLsbD_of_ge _ _ this]
      · simp [rest, above]

/-- EncodesInRow: a well-formed instruction's word belongs to the instruction's row of the table. -/
def EncodesInRow.Statement (i : Instr) : Prop :=
  i.wf = true → (rowOf i).covers (encode i) = true


theorem EncodesInRow.add (rop : ResultOp) (x : Bool) (d a b : RegIdx) :
    EncodesInRow.Statement (.add rop x d a b) := fun _ =>
  beq_iff_eq.mpr (encodeAlu_row 0#5 rop x d a b)

theorem EncodesInRow.adc (rop : ResultOp) (x : Bool) (d a b : RegIdx) :
    EncodesInRow.Statement (.adc rop x d a b) := fun _ =>
  beq_iff_eq.mpr (encodeAlu_row 1#5 rop x d a b)

theorem EncodesInRow.sub (rop : ResultOp) (x : Bool) (d a b : RegIdx) :
    EncodesInRow.Statement (.sub rop x d a b) := fun _ =>
  beq_iff_eq.mpr (encodeAlu_row 2#5 rop x d a b)

theorem EncodesInRow.sbb (rop : ResultOp) (x : Bool) (d a b : RegIdx) :
    EncodesInRow.Statement (.sbb rop x d a b) := fun _ =>
  beq_iff_eq.mpr (encodeAlu_row 3#5 rop x d a b)

theorem EncodesInRow.xor (rop : ResultOp) (x : Bool) (d a b : RegIdx) :
    EncodesInRow.Statement (.xor rop x d a b) := fun _ =>
  beq_iff_eq.mpr (encodeAlu_row 8#5 rop x d a b)

theorem EncodesInRow.or (rop : ResultOp) (x : Bool) (d a b : RegIdx) :
    EncodesInRow.Statement (.or rop x d a b) := fun _ =>
  beq_iff_eq.mpr (encodeAlu_row 9#5 rop x d a b)

theorem EncodesInRow.and (rop : ResultOp) (x : Bool) (d a b : RegIdx) :
    EncodesInRow.Statement (.and rop x d a b) := fun _ =>
  beq_iff_eq.mpr (encodeAlu_row 10#5 rop x d a b)

theorem EncodesInRow.andnot (rop : ResultOp) (x : Bool) (d a b : RegIdx) :
    EncodesInRow.Statement (.andnot rop x d a b) := fun _ =>
  beq_iff_eq.mpr (encodeAlu_row 11#5 rop x d a b)

theorem EncodesInRow.nand (rop : ResultOp) (x : Bool) (d a b : RegIdx) :
    EncodesInRow.Statement (.nand rop x d a b) := fun _ =>
  beq_iff_eq.mpr (encodeAlu_row 12#5 rop x d a b)

theorem EncodesInRow.aluReserved47 (rop : ResultOp) (x : Bool) (d : RegIdx) (w : Word) :
    EncodesInRow.Statement (.aluReserved47 rop x d w) := fun h =>
  beq_iff_eq.mpr (carriedAlu_row (codeMask := 0x1C#5) (codePattern := 0x04#5) h (by decide))

theorem EncodesInRow.aluUnrecognised13 (rop : ResultOp) (x : Bool) (d : RegIdx) (w : Word) :
    EncodesInRow.Statement (.aluUnrecognised13 rop x d w) := fun h =>
  beq_iff_eq.mpr (carriedAlu_row (codeMask := 0x1F#5) (codePattern := 0x0D#5) h (by decide))

theorem EncodesInRow.aluUnrecognised1415 (rop : ResultOp) (x : Bool) (d : RegIdx) (w : Word) :
    EncodesInRow.Statement (.aluUnrecognised1415 rop x d w) := fun h =>
  beq_iff_eq.mpr (carriedAlu_row (codeMask := 0x1E#5) (codePattern := 0x0E#5) h (by decide))

theorem EncodesInRow.aluUnrecognised1631 (rop : ResultOp) (x : Bool) (d : RegIdx) (w : Word) :
    EncodesInRow.Statement (.aluUnrecognised1631 rop x d w) := fun h =>
  beq_iff_eq.mpr (carriedAlu_row (codeMask := 0x10#5) (codePattern := 0x10#5) h (by decide))

theorem EncodesInRow.addi (rop : ResultOp) (x : Bool) (d a : RegIdx) (imm : Imm18) :
    EncodesInRow.Statement (.addi rop x d a imm) := fun _ =>
  beq_iff_eq.mpr (encodeImm_row 1#3 rop x d a imm)

theorem EncodesInRow.extins (rop : ResultOp) (x : Bool) (d a b : RegIdx) (sb sz db : Field5) :
    EncodesInRow.Statement (.extins rop x d a b sb sz db) := fun _ =>
  beq_iff_eq.mpr (encodeBitfield_row 2#3 rop x d a b sb sz db)

theorem EncodesInRow.extshli (rop : ResultOp) (x : Bool) (d a b : RegIdx) (sz db : Field5) :
    EncodesInRow.Statement (.extshli rop x d a b sz db) := fun _ =>
  beq_iff_eq.mpr (encodeBitfield_row 3#3 rop x d a b 0#5 sz db)

theorem EncodesInRow.extshlr (rop : ResultOp) (x : Bool) (d a b : RegIdx) (sb sz : Field5) :
    EncodesInRow.Statement (.extshlr rop x d a b sb sz) := fun _ =>
  beq_iff_eq.mpr (encodeBitfield_row 4#3 rop x d a b sb sz 0#5)

theorem EncodesInRow.read (rop : ResultOp) (x : Bool) (d a : RegIdx) (imm : Imm18) :
    EncodesInRow.Statement (.read rop x d a imm) := fun _ =>
  beq_iff_eq.mpr (encodeImm_row 5#3 rop x d a imm)

theorem EncodesInRow.rsvd (x : Bool) (w : Word) : EncodesInRow.Statement (.rsvd x w) := fun h => by
  simp only [Instr.wf, Bool.and_eq_true, beq_iff_eq] at h
  refine beq_iff_eq.mpr (masked_eq fun i hi => ?_)
  by_cases first : i < 3
  · simp only [encode, carriedWord, Option.getD_some, rowOf]
    rw [getLsbD_operation w first, h.1]
    interval_cases i <;> rfl
  · interval_cases i <;> first | omega | simp [rowOf]

theorem EncodesInRow.bz (annul : Bool) (a : RegIdx) (imm : Imm18) :
    EncodesInRow.Statement (.bz annul a imm) := fun _ =>
  beq_iff_eq.mpr (encodeBranch_row false annul a imm)

theorem EncodesInRow.bnz (annul : Bool) (a : RegIdx) (imm : Imm18) :
    EncodesInRow.Statement (.bnz annul a imm) := fun _ =>
  beq_iff_eq.mpr (encodeBranch_row true annul a imm)

end Sys2Proof.Laws
end

