-- ==== Sys2Proof/Tests/Slice0.lean ====
section
/-! SUPPORT. Tests: words assembled by hand and the vectors of spec/95_test_vectors.md, one step each, and a
witness for the hypotheses of every statement. -/

namespace Sys2Proof.Tests

open Sys2Proof.Machine Sys2Proof.Safety

/-! ## Helpers -/

/-- An invocation at its start, on a body, with parameters and bank answers. -/
def small (body params answers : List Word) : State :=
  State.reset.start body params answers (params.headD 0#32)

/-- The one word `w` at the start of an invocation, with `x[1] = a`, `x[2] = b`. -/
def twoOps (w a b : Word) : State := ((small [w] [0#32] []).setReg 1#3 a).setReg 2#3 b

/-- The step ends in a next state of which `p` holds. -/
def after (o : Host.Outcome State Fault Refusal) (p : State → Bool) : Bool :=
  match o with
  | .next t => p t
  | .fault _ => false
  | .refused _ => false

/-- One step gives register 3 the value `v` and the carry `c`. -/
def gives (s : State) (v : Word) (c : Bool) : Bool :=
  after (step s) fun t => t.reg 3#3 == v && t.carry == c && t.pc == s.pc + 4#32

/-- The parameter left is the last one (`cursor = len - 1`). -/
def fetching : State := small [] [7#32, 8#32] []

/-- No parameter is left (`cursor = len`). -/
def drained : State := small [] [7#32] []

/-- A state with other modes than the default. -/
def otherModes (s : State) : State :=
  { s with cfg := { numGpuRegs := 16, subCarry := .notBorrow, unknownAlu := .resultZero, largeShift := .mod32 } }

/-! ## Well-formedness: one ill-formed term for each check -/

theorem test_wf_alu_operation : (Instr.aluReserved47 .move false 3 0x00088B11#32).wf = false := by decide
theorem test_wf_alu_below : (Instr.aluReserved47 .move false 3 0x00068B10#32).wf = false := by decide
theorem test_wf_alu_above : (Instr.aluReserved47 .move false 3 0x00108B10#32).wf = false := by decide
theorem test_wf_alu_result_op : (Instr.aluReserved47 .moveSend false 3 0x00088B10#32).wf = false := by decide
theorem test_wf_alu_exit : (Instr.aluReserved47 .move true 3 0x00088B10#32).wf = false := by decide
theorem test_wf_alu_dst : (Instr.aluReserved47 .move false 2 0x00088B10#32).wf = false := by decide
theorem test_wf_alu_good : (Instr.aluReserved47 .move false 3 0x00088B10#32).wf = true := by decide
theorem test_wf_13_range :
    (Instr.aluUnrecognised13 .move false 3 0x00188B10#32).wf = false ∧
    (Instr.aluUnrecognised13 .move false 3 0x001C8B10#32).wf = false := by decide
theorem test_wf_1415_range :
    (Instr.aluUnrecognised1415 .move false 3 0x001A8B10#32).wf = false ∧
    (Instr.aluUnrecognised1415 .move false 3 0x00208B10#32).wf = false := by decide
theorem test_wf_1631_range :
    (Instr.aluUnrecognised1631 .move false 3 0x001E8B10#32).wf = false ∧
    (Instr.aluUnrecognised1631 .move false 3 0x003E8B10#32).wf = true := by decide
theorem test_wf_rsvd_operation : (Instr.rsvd true 0x00000097#32).wf = false := by decide
theorem test_wf_rsvd_exit : (Instr.rsvd false 0x00000096#32).wf = false := by decide

/-! ## Decoding: words written out from 30_encoding.md R71, R73 to R76 -/

/-- `ALUOP.MOVE R3, R1, R2` is 0x8B10 with the code at bit 17. -/
theorem test_decode_arithmetic :
    decode 0x00008B10#32 = .add .move false 3 1 2 ∧
    decode 0x00028B10#32 = .adc .move false 3 1 2 ∧
    decode 0x00048B10#32 = .sub .move false 3 1 2 ∧
    decode 0x00068B10#32 = .sbb .move false 3 1 2 := by decide

theorem test_decode_logic :
    decode 0x00108B10#32 = .xor .move false 3 1 2 ∧
    decode 0x00128B10#32 = .or .move false 3 1 2 ∧
    decode 0x00148B10#32 = .and .move false 3 1 2 ∧
    decode 0x00168B10#32 = .andnot .move false 3 1 2 ∧
    decode 0x00188B10#32 = .nand .move false 3 1 2 := by decide

theorem test_decode_unknown_alu :
    decode 0x00088B10#32 = .aluReserved47 .move false 3 0x00088B10#32 ∧
    decode 0x000E8B10#32 = .aluReserved47 .move false 3 0x000E8B10#32 ∧
    decode 0x001A8B10#32 = .aluUnrecognised13 .move false 3 0x001A8B10#32 ∧
    decode 0x001C8B10#32 = .aluUnrecognised1415 .move false 3 0x001C8B10#32 ∧
    decode 0x001E8B10#32 = .aluUnrecognised1415 .move false 3 0x001E8B10#32 ∧
    decode 0x00208B10#32 = .aluUnrecognised1631 .move false 3 0x00208B10#32 ∧
    decode 0x003E8B10#32 = .aluUnrecognised1631 .move false 3 0x003E8B10#32 := by decide

/-- The edges of the immediate (95_test_vectors.md section 3.1). -/
theorem test_decode_addi :
    decode 0x80000B11#32 = .addi .move false 3 1 0x20000 ∧
    decode 0x7FFFCB11#32 = .addi .move false 3 1 0x1FFFF := by decide

theorem test_decode_bitfield :
    decode 0x82088B12#32 = .extins .move false 3 1 2 4 8 16 ∧
    decode 0x22008B13#32 = .extshli .move false 3 1 2 8 4 ∧
    decode 0x02088B14#32 = .extshlr .move false 3 1 2 4 8 := by decide

theorem test_decode_read : decode 0xFFFFC235#32 = .read .fetchSend false 2 0 0x3FFFF := by decide

theorem test_decode_reserved :
    decode 0x00000006#32 = .rsvd false 0x00000006#32 ∧
    decode 0xFFFFFFF6#32 = .rsvd true 0xFFFFFFF6#32 := by decide

/-- VJ2, VJ6, VJ7 (bit 7 of a BRANCH is not read), VX10. -/
theorem test_decode_branch :
    decode 0x0000C807#32 = .bz false 1 3 ∧ decode 0x0000C837#32 = .bnz true 1 3 ∧
    decode 0x00008887#32 = .bz false 1 2 ∧ decode 0xFFFFC027#32 = .bz true 0 0x3FFFF := by decide

/-- The eight result operations: VO0 to VO7, `0x04108301 + 16 * code`, exit at bit 7. -/
theorem test_decode_result_ops :
    decode 0x04108301#32 = .addi .ignoreFetch false 3 0 0x1042 ∧
    decode 0x04108391#32 = .addi .move true 3 0 0x1042 ∧
    decode 0x04108321#32 = .addi .moveSetMethod false 3 0 0x1042 ∧
    decode 0x04108331#32 = .addi .fetchSend false 3 0 0x1042 ∧
    decode 0x04108341#32 = .addi .moveSend false 3 0 0x1042 ∧
    decode 0x04108351#32 = .addi .fetchSetMethod false 3 0 0x1042 ∧
    decode 0x04108361#32 = .addi .moveSetMethodFetchSend false 3 0 0x1042 ∧
    decode 0x041083F1#32 = .addi .moveSetMethodSend true 3 0 0x1042 := by decide

/-- The pattern of each row of the opcode table decodes to the row's instruction. -/
theorem test_decode_table_rows :
    tableRows.map (fun r => (decodeTableWord 32 r.pattern.toNat).map fun i => (rowOf i).pattern) =
      tableRows.map fun r => some r.pattern := by decide

/-- S1's words, assembled by R87. -/
theorem test_encode_worked_example :
    encode (.addi .move true 2 0 0) = 0x00000291#32 ∧ encode (.bnz false 2 3) = 0x0000D017#32 ∧
    encode (.adc .moveSend true 7 3 5) = 0x00035FC0#32 := by decide

/-- R85 and R87: `RSVD` is 0x6, `RSVD.EXIT` 0x86, whatever else the decoded word held; `ALU<n>` is the ALU
format. -/
theorem test_assemble_logged :
    assemble (.rsvd false 0xFFFFFF76#32) = 0x00000006#32 ∧
    assemble (.rsvd true 0xFFFFFFF6#32) = 0x00000086#32 ∧
    assemble (.aluReserved47 .move false 3 0xFFC88B18#32) = 0x00088B10#32 ∧
    assemble (.aluUnrecognised1631 .move false 3 0x003E8B18#32) = 0x003E8B10#32 := by decide

/-! ## One step of each instruction -/

theorem test_add_wraps : gives (twoOps 0x00008B10#32 0xFFFFFFFF#32 1#32) 0#32 true := by decide -- VA2
theorem test_add_no_carry : gives { twoOps 0x00008B10#32 1#32 2#32 with carry := true } 3#32 false := by
  decide -- VA1
theorem test_adc_carry_in : gives { twoOps 0x00028B10#32 0xFFFFFFFF#32 0#32 with carry := true } 0#32 true := by
  decide -- VA8
theorem test_adc_both : gives { twoOps 0x00028B10#32 0xFFFFFFFF#32 0xFFFFFFFF#32 with carry := true }
    0xFFFFFFFF#32 true := by decide -- VA10
theorem test_sub_borrow : gives (twoOps 0x00048B10#32 3#32 5#32) 0xFFFFFFFE#32 true := by decide -- VA12
theorem test_sub_notBorrow : gives (otherModes (twoOps 0x00048B10#32 5#32 5#32)) 0#32 true := by decide -- VA13
theorem test_sbb_borrow : gives { twoOps 0x00068B10#32 0#32 0xFFFFFFFF#32 with carry := true } 0#32 true := by
  decide -- VA23
theorem test_sbb_notBorrow : gives (otherModes (twoOps 0x00068B10#32 5#32 5#32)) 0xFFFFFFFF#32 false := by
  decide -- VA19
theorem test_xor : gives (twoOps 0x00108B10#32 0xF0F000FF#32 0x0FF00F0F#32) 0xFF000FF0#32 false := by
  decide -- VA25
theorem test_or : gives (twoOps 0x00128B10#32 0xF0F000FF#32 0x0FF00F0F#32) 0xFFF00FFF#32 false := by
  decide -- VA26
theorem test_and : gives (twoOps 0x00148B10#32 0xF0F000FF#32 0x0FF00F0F#32) 0x00F0000F#32 false := by
  decide -- VA27
theorem test_andnot : gives (twoOps 0x00168B10#32 0xF0F000FF#32 0x0FF00F0F#32) 0xF00000F0#32 false := by
  decide -- VA28
theorem test_nand : gives { twoOps 0x00188B10#32 0xF0F000FF#32 0x0FF00F0F#32 with carry := true }
    0xFF0FFFF0#32 true := by decide -- VA29

/-- 41_alu.md R130, mode NOP: an event and nothing else. -/
theorem test_unknown_alu_nop : after (step (twoOps 0x00088B10#32 5#32 6#32)) (fun t =>
    t.trace == [.diag 0#32 0x00088B10#32] && t.reg 3#3 == 0#32 && t.pc == 4#32) := by decide
/-- 41_alu.md R130, mode RESULT_ZERO: R3 gets 0. -/
theorem test_unknown_alu_zero : after (step (otherModes ((twoOps 0x001A8B10#32 5#32 6#32).setReg 3#3 9#32)))
    (fun t => t.trace == [.diag 0#32 0x001A8B10#32] && t.reg 3#3 == 0#32) := by decide
theorem test_unknown_alu_1415 : after (step (twoOps 0x001C8B10#32 5#32 6#32)) (fun t =>
    t.trace == [.diag 0#32 0x001C8B10#32] && t.reg 3#3 == 0#32) := by decide
theorem test_unknown_alu_1631 : after (step (twoOps 0x003E8B10#32 5#32 6#32)) (fun t =>
    t.trace == [.diag 0#32 0x003E8B10#32] && t.reg 3#3 == 0#32) := by decide

theorem test_addi_negative : gives (twoOps 0x80000B11#32 5#32 0#32) 0xFFFE0005#32 false := by decide -- VB4
theorem test_addi_no_carry : gives (twoOps 0x00004B11#32 0xFFFFFFFF#32 0#32) 0#32 false := by decide -- VB5
theorem test_extins : gives (twoOps 0x82088B12#32 0xFFFFFFFF#32 0x12345678#32) 0xFF67FFFF#32 false := by
  decide -- VB6
theorem test_extins_top : gives (twoOps 0xF8808B12#32 0xAAAAAAAA#32 3#32) 0xAAAAAAAA#32 false := by
  decide -- VB9
theorem test_extshli : gives (twoOps 0x22008B13#32 8#32 0x12345678#32) 0x00000560#32 false := by
  decide -- VB12
theorem test_extshli_mod32 : gives (otherModes (twoOps 0x00408B13#32 32#32 1#32)) 1#32 false := by
  decide -- VB16
theorem test_extshlr : gives (twoOps 0x01008B14#32 28#32 0x12345678#32) 0x80000000#32 false := by
  decide -- VB20
theorem test_extshlr_mod32 : gives (otherModes (twoOps 0x00408B14#32 33#32 1#32)) 2#32 false := by
  decide -- VB22
/-- 42_immediate_bitfield.md R145, DRAW: the free value, and a value taken. -/
theorem test_extshli_draw : after (step (twoOps 0x00408B13#32 32#32 1#32)) (fun t => t.draws == 1) := by
  decide

theorem test_read_answer : after (step ({ small [0x00040215#32] [0xC#32] [0xAAAA5555#32] with draws := 0 }))
    (fun t => t.reg 2#3 == 0xAAAA5555#32 && t.trace == [.read 0x10#32 0xAAAA5555#32]) := by decide -- P3
theorem test_read_range : after (step (small [0xFFFFC235#32] [0#32] [1#32])) (fun t =>
    t.status == .error (.registerOutOfRange 0xFFFFFFFF#32) && t.trace == []) := by decide -- VX16
theorem test_reserved : after (step (small [0xFFFFFFF6#32] [0#32] [])) (fun t =>
    t.trace == [.diag 0#32 0xFFFFFFF6#32] && t.slot == .exitDelay) := by decide -- VS2
theorem test_bz_taken : after (step (small [0x0000C007#32] [0#32] [])) (fun t =>
    t.pc == 4#32 && t.slot == .branchDelay 12#32) := by decide -- VJ1
theorem test_bz_wraps : after (step (small [0xFFFFC027#32] [0#32] [])) (fun t =>
    t.pc == 0xFFFFFFFC#32 && t.slot == .none) := by decide -- VX10
theorem test_bnz_taken : after (step (small [0x0000C817#32] [1#32] [])) (fun t =>
    t.pc == 4#32 && t.slot == .branchDelay 12#32) := by decide -- VJ3
theorem test_bnz_not_taken : after (step (small [0x0000C837#32] [0#32] [])) (fun t =>
    t.pc == 4#32 && t.slot == .none) := by decide -- VJ6

/-! ## Result operations -/

theorem test_ignore_fetch_to_r0 : after (step (small [0x00014081#32] [0#32, 0x77#32] [])) (fun t =>
    t.reg 0#3 == 0#32 && t.cursor == 2) := by decide -- VO11
theorem test_fetch_send : after (step (small [0x04108331#32] [0#32, 0x99#32] [])) (fun t =>
    t.reg 3#3 == 0x99#32 && t.trace == [.call 0#32 0x1042#32]) := by decide -- VO3
theorem test_fetch_set_method : after (step (small [0x04108351#32] [0#32, 0x99#32] [])) (fun t =>
    t.reg 3#3 == 0x99#32 && t.maddr == 0x1042#32) := by decide -- VO5
theorem test_set_method_fetch_send : after (step (small [0x04108361#32] [0#32, 0x99#32] [])) (fun t =>
    t.reg 3#3 == 0x1042#32 && t.maddr == 0x1043#32 && t.trace == [.call 0x42#32 0x99#32]) := by
  decide -- VO6
theorem test_set_method_send : after (step (small [0x04108371#32] [0#32] [])) (fun t =>
    t.maddr == 0x1043#32 && t.trace == [.call 0x42#32 1#32]) := by decide -- VO7
theorem test_send_wraps : after (step { small [0x00004041#32] [0#32] [] with maddr := 0x3FFF#32 }) (fun t =>
    t.maddr == 0x3002#32 && t.trace == [.call 0xFFF#32 1#32]) := by decide -- VO8
theorem test_send_upper_bits : after (step { small [0x000140C1#32] [0#32] [] with maddr := 0xFFFFF042#32 })
    (fun t => t.maddr == 0xFFFFF081#32 && t.trace == [.call 0x042#32 5#32]) := by decide -- VO10
theorem test_underflow_is_precise : after (step (twoOps 0x00008BB0#32 1#32 0xFFFFFFFF#32)) (fun t =>
    t.status == .error (.parameterUnderflow 1) && t.carry == false && t.trace == []) := by decide -- VO14

/-! ## Sequencing, errors, start -/

theorem test_exit_slot_ends : after (step { small [0x11#32] [0#32] [] with slot := .exitDelay }) (fun t =>
    t.status == .done) := by decide -- S1
theorem test_exit_slot_leftover : after (step { small [0x11#32] [0#32, 7#32] [] with slot := .exitDelay })
    (fun t => t.status == .error (.parameterLeftover 1)) := by decide -- VX3
theorem test_branch_in_slot : after (step { small [0x00014017#32] [0#32] [] with slot := .branchDelay 8#32 })
    (fun t => t.status == .error (.badDelaySlot 0#32)) := by decide -- VX1
theorem test_fetch_past_body : after (step { small [0x91#32] [0#32] [] with pc := 4#32 }) (fun t =>
    t.status == .error (.fetchOutOfRange 4#32)) := by decide -- VX4
theorem test_reset_step : after (step State.reset) (fun t =>
    t.status == .error (.fetchOutOfRange 0#32)) := by decide -- log 2
theorem test_withFetchWord : after (step (State.reset.withFetchWord 32 0x00014291)) (fun t =>
    t.reg 2#3 == 5#32) := by decide -- VX2's first word
theorem test_reset_is_start : State.reset = State.reset.start [] [0#32] [] 0#32 := by decide
theorem test_core_reset : Sys2Proof.core.reset = State.reset := rfl

/-- Key 0x20 with the three words of 95_test_vectors.md section 3.8. -/
def store : Memory := [(0x20, [0x00004211#32, 0x00008391#32, 0x00000011#32])]

theorem test_store_append :
    Memory.append (Memory.append (Memory.append [] 0x20 0x00004211#32) 0x20 0x00008391#32) 0x20
      0x00000011#32 = store := by decide
/-- VM1 to VM5. -/
theorem test_store_bodies :
    store.bodies 0x20 = [[0x00004211#32, 0x00008391#32, 0x00000011#32]] ∧
    store.bodies 0x21 = [[0x00008391#32, 0x00000011#32]] ∧ store.bodies 0x22 = [[0x00000011#32]] ∧
    store.bodies 0x23 = [] ∧ store.bodies 0x1F = [] := by decide
/-- VM4 and VX13. -/
theorem test_invoke_errors :
    ({ State.reset with memory := store }.invoke 0x23 [0#32] []).status = .error (.unknownMacro 0x23) ∧
    ({ State.reset with memory := store }.invoke 0x20 [] []).status = .error (.parameterUnderflow 0) := by
  decide
/-- VM2's body and pre-state. -/
theorem test_invoke_tail :
    ({ State.reset with memory := store }.invoke 0x21 [9#32] []).body = [0x00008391#32, 0x00000011#32] ∧
    ({ State.reset with memory := store }.invoke 0x21 [9#32] []).reg 1#3 = 9#32 := by decide

/-! ## Witnesses: for every statement with hypotheses, states and operands that meet them all -/

/-- A state in which a step has not raised. -/
theorem not_raised_of_running {t : State} (h : t.status = .running) : ¬ Raised t := by
  rintro ⟨e, he, -⟩
  rw [h] at he
  cases he

/-- A run that has ended DONE has not raised. -/
theorem not_raised_of_done {t : State} (h : t.status = .done) : ¬ Raised t := by
  rintro ⟨e, he, -⟩
  rw [h] at he
  cases he

theorem test_witness_DecodeOfEncodeIsIdentity :
    (Instr.rsvd true 0x00000096#32).wf = true ∧ (Instr.aluReserved47 .move false 3 0x000E8B10#32).wf = true ∧
    (Instr.bnz true 7 0x3FFFF).wf = true := by decide

/-- Bit 3 and the bits above `alu_op` are not read. -/
theorem test_witness_UnreadBitsDoNotMatter :
    logsWord (decode 0x00008B10#32) = false ∧
    0x00008B10#32 &&& readBits (decode 0x00008B10#32) =
      0xFFC08B18#32 &&& readBits (decode 0x00008B10#32) := by decide

theorem test_witness_DecodeOfAssembleUpToCarriedWord :
    (Instr.rsvd true 0xFFFFFFF6#32).wf = true ∧
    (Instr.aluUnrecognised1631 .move false 3 0xFFFE8B18#32).wf = true ∧ (Instr.bz true 0 0x3FFFF).wf = true := by
  decide

theorem test_witness_EachWordBelongsToItsOneRow :
    rowOf (decode 0x001A8B10#32) ∈ tableRows ∧ rowOf (decode 0x0000C837#32) ∈ tableRows := by decide

/-- The two cases of `Produces`, where they meet: one parameter left, and none left. -/
theorem test_witness_Produces :
    CanFetch .fetchSend fetching ∧ CanFetch .move drained ∧
    (fetches .fetchSend = true ∧ drained.params.length ≤ drained.cursor) :=
  ⟨fun _ => by decide, fun h => (by cases h), by decide⟩

/-- The words of the arithmetic functions (with `test_witness_Produces`). -/
theorem test_witness_AddGivesSumAndCarryOut :
    BitVec.extractLsb' 0 3 0xFFC08B18#32 = 0#3 ∧ (BitVec.extractLsb' 17 5 0xFFC08B18#32).toNat = 0 := by
  decide
theorem test_witness_AdcAddsTheCarry :
    BitVec.extractLsb' 0 3 0x00028B10#32 = 0#3 ∧ (BitVec.extractLsb' 17 5 0x00028B10#32).toNat = 1 := by
  decide
theorem test_witness_SubGivesDifferenceAndBorrow :
    BitVec.extractLsb' 0 3 0x00048B10#32 = 0#3 ∧ (BitVec.extractLsb' 17 5 0x00048B10#32).toNat = 2 := by
  decide
theorem test_witness_SbbSubtractsTheBorrow :
    BitVec.extractLsb' 0 3 0x00068B10#32 = 0#3 ∧ (BitVec.extractLsb' 17 5 0x00068B10#32).toNat = 3 := by
  decide
/-- The words of the logic functions (with `test_witness_Produces`). -/
theorem test_witness_LogicFunctionsAreBitwise :
    (BitVec.extractLsb' 17 5 0x00108B10#32).toNat = 8 ∧ (BitVec.extractLsb' 17 5 0x00128B10#32).toNat = 9 ∧
    (BitVec.extractLsb' 17 5 0x00148B10#32).toNat = 10 ∧
    (BitVec.extractLsb' 17 5 0x00168B10#32).toNat = 11 ∧
    (BitVec.extractLsb' 17 5 0x00188B10#32).toNat = 12 := by decide
theorem test_witness_UnknownAluCodeOnlyLogs : fetching.cfg.unknownAlu = .nop := by decide
/-- Both clauses, at the boundary. -/
theorem test_witness_UnknownAluCodeDeliversZero :
    (otherModes fetching).cfg.unknownAlu = .resultZero ∧ CanFetch .fetchSend (otherModes fetching) ∧
    fetches .fetchSend = true ∧ (otherModes drained).cfg.unknownAlu = .resultZero ∧
    (otherModes drained).params.length ≤ (otherModes drained).cursor :=
  ⟨by decide, fun _ => by decide, by decide, by decide, by decide⟩
/-- The words (with `test_witness_Produces`). -/
theorem test_witness_AddImmediateAddsSignedField : BitVec.extractLsb' 0 3 0xFFFFCB11#32 = 1#3 := by decide
theorem test_witness_ExtractInsertPlacesField : BitVec.extractLsb' 0 3 0x82088B12#32 = 2#3 := by decide
/-- The words, and the largest shift below 32 (with `test_witness_Produces`). -/
theorem test_witness_ExtractShlImmShiftsByRegister :
    BitVec.extractLsb' 0 3 0x22008B13#32 = 3#3 ∧ ((fetching.setReg 1#3 31#32).reg 1#3).toNat < 32 := by
  decide
theorem test_witness_ExtractShlRegShiftsByRegister :
    BitVec.extractLsb' 0 3 0x02088B14#32 = 4#3 ∧ ((fetching.setReg 1#3 31#32).reg 1#3).toNat < 32 := by
  decide
/-- The smallest large shift, with a parameter left and with none. -/
theorem test_witness_LargeShiftDrawsFreeValue :
    32 ≤ ((fetching.setReg 1#3 32#32).reg 1#3).toNat ∧
    (fetching.setReg 1#3 32#32).cfg.largeShift = .draw ∧ CanFetch .fetchSend (fetching.setReg 1#3 32#32) ∧
    32 ≤ ((drained.setReg 1#3 32#32).reg 1#3).toNat ∧ fetches .fetchSend = true ∧
    (drained.setReg 1#3 32#32).params.length ≤ (drained.setReg 1#3 32#32).cursor :=
  ⟨by decide, by decide, fun _ => by decide, by decide, by decide, by decide⟩
theorem test_witness_LargeShiftModulo32 :
    32 ≤ (((otherModes fetching).setReg 1#3 32#32).reg 1#3).toNat ∧
    ((otherModes fetching).setReg 1#3 32#32).cfg.largeShift = .mod32 := by decide
/-- The words; the last index with a parameter left and with none; the first index outside. -/
theorem test_witness_ReadDeliversBankAnswer :
    BitVec.extractLsb' 0 3 0x00040B15#32 = 5#3 ∧
    (plusImm (fetching.reg 0#3) 0xFFF#18 1).toNat < fetching.cfg.numGpuRegs ∧
    CanFetch .fetchSend fetching ∧
    (plusImm (drained.reg 0#3) 0xFFF#18 1).toNat < drained.cfg.numGpuRegs ∧
    fetches .fetchSend = true ∧ drained.params.length ≤ drained.cursor ∧
    fetching.cfg.numGpuRegs ≤ (plusImm (fetching.reg 0#3) 0x1000#18 1).toNat :=
  ⟨by decide, by decide, fun _ => by decide, by decide, by decide, by decide, by decide⟩
theorem test_witness_ReservedOnlyLogs : BitVec.extractLsb' 0 3 0xFFFFFFF6#32 = 6#3 := by decide
theorem test_witness_BranchByConditionAndAnnul :
    BitVec.extractLsb' 0 3 0xFFFF0837#32 = 7#3 ∧ fetching.slot = .none := by decide
/-- An increment of 0, and an instruction that sends. -/
theorem test_witness_SendCallsThenAdvances :
    BitVec.extractLsb' 12 6 drained.maddr = 0#6 ∧
    ∃ t, exec (.addi .moveSend false 3 0 1) drained = .next t := ⟨by decide, _, rfl⟩
theorem test_witness_StepRunsDecodedInstruction :
    (small [0x11#32, 0x91#32] [0#32] []).status = .running ∧
    (small [0x11#32, 0x91#32] [0#32] []).body[(0#32 : Word).toNat / 4]? = some 0x11#32 := by decide
/-- The first offset outside the body, and an empty body. -/
theorem test_witness_FetchOutsideBodyIsError :
    ({ small [0x11#32] [0#32] [] with pc := 4#32 }).status = .running ∧
    4 * [0x11#32].length ≤ (4#32 : Word).toNat ∧ State.reset.status = .running ∧
    4 * State.reset.body.length ≤ State.reset.pc.toNat := by decide
theorem test_witness_EndedCoreDoesNotStep :
    ({ drained with status := .done }).status ≠ .running ∧
    ({ drained with status := .error (.parameterLeftover 1) }).status ≠ .running := by decide
/-- Both slots; a BRANCH word in the slot; the slot's word missing. -/
theorem test_witness_BranchInDelaySlotRaises :
    ({ drained with slot := .exitDelay }).slot ≠ .none ∧
    ({ drained with slot := .branchDelay 8#32 }).slot ≠ .none ∧ drained.status = .running ∧
    (small [0x00000017#32] [0#32] []).body[(0#32 : Word).toNat / 4]? = some 0x00000017#32 ∧
    BitVec.extractLsb' 0 3 0x00000017#32 = 7#3 ∧ 4 * drained.body.length ≤ drained.pc.toNat := by decide
/-- All three slots. -/
theorem test_witness_SlotDecidesWhatFollows (slot : Slot)
    (h : slot = .none ∨ slot = .branchDelay 8#32 ∨ slot = .exitDelay) :
    drained.status = .running ∧
    ∃ t, exec (.addi .move true 2 0 5) { drained with slot := slot } = .next t ∧ ¬ Raised t := by
  refine ⟨by decide, ?_⟩
  rcases h with rfl | rfl | rfl
  · exact ⟨_, rfl, not_raised_of_running rfl⟩
  · exact ⟨_, rfl, not_raised_of_running rfl⟩
  · exact ⟨_, rfl, not_raised_of_done (by decide)⟩
theorem test_witness_ExitBitIgnoredInDelaySlot :
    ({ drained with slot := .exitDelay }).slot ≠ .none ∧
    ({ drained with slot := .branchDelay 0#32 }).slot ≠ .none := by decide
theorem test_witness_ExitRunsExactlyOneMore :
    drained.status = .running ∧ drained.slot = .none ∧ exitBit (.addi .move true 2 0 5) = true ∧
    ∃ t u, exec (.addi .move true 2 0 5) drained = .next t ∧ ¬ Raised t ∧
      exec (.addi .move false 0 0 0) t = .next u ∧ ¬ Raised u :=
  ⟨by decide, by decide, by decide, _, _, rfl, not_raised_of_running rfl, rfl,
    not_raised_of_done (by decide)⟩
theorem test_witness_FinishChecksParameterCount :
    ({ drained with slot := .exitDelay }).slot = .exitDelay ∧ drained.cursor ≤ drained.params.length ∧
    ∃ t, exec (.addi .move false 0 0 0) { drained with slot := .exitDelay } = .next t ∧ ¬ Raised t :=
  ⟨by decide, by decide, _, rfl, not_raised_of_done (by decide)⟩
/-- Both conditions. -/
theorem test_witness_TakenBranchRunsSlotThenTarget :
    drained.status = .running ∧ drained.slot = .none ∧
    (drained.reg 0#3 = 0#32 ↔ false = false) ∧ (drained.reg 1#3 = 0#32 ↔ true = false) ∧
    (∃ t u, exec (.bz false 0 3) drained = .next t ∧ exec (.addi .move false 2 0 1) t = .next u ∧
      ¬ Raised u) ∧
    ∃ t u, exec (.bnz false 1 3) drained = .next t ∧ exec (.addi .move false 2 0 1) t = .next u ∧
      ¬ Raised u :=
  ⟨by decide, by decide, by decide, by decide, ⟨_, _, rfl, rfl, not_raised_of_running rfl⟩,
    ⟨_, _, rfl, rfl, not_raised_of_running rfl⟩⟩
/-- An underflow after an event (READ), and a fetch outside the body. -/
theorem test_witness_ErrorsArePrecise :
    (∃ t, step (small [0x00040235#32] [0#32] [5#32]) = .next t ∧ Raised t) ∧
    ∃ t, step State.reset = .next t ∧ Raised t :=
  ⟨⟨_, rfl, .parameterUnderflow 1, by decide, rfl⟩, ⟨_, rfl, .fetchOutOfRange 0#32, by decide, rfl⟩⟩
theorem test_witness_StepRaisesOnlyCoreKinds :
    ∃ t, step State.reset = .next t ∧ t.status = .error (.fetchOutOfRange 0#32) := ⟨_, rfl, by decide⟩
/-- The first index outside. -/
theorem test_witness_RangeErrorOnlyFromRead :
    drained.cfg.numGpuRegs ≤ (plusImm (drained.reg 0#3) 0x1000#18 1).toNat ∧
    drained.status = .running ∧ ∃ t, exec (.read .fetchSend false 2 0 0x1000) drained = .next t ∧
      t.status = .error (.registerOutOfRange 0x1000#32) := ⟨by decide, by decide, _, rfl, by decide⟩
/-- An instruction other than READ that logs a call. -/
theorem test_witness_RangeErrorOnlyFromRead_others :
    isRead (.addi .moveSend false 3 0 1) = false ∧
    ∃ t, exec (.addi .moveSend false 3 0 1) drained = .next t ∧ t.trace = [.call 0#32 1#32] :=
  ⟨by decide, _, rfl, by decide⟩
theorem test_witness_UnderflowOnlyFromFetching :
    drained.status = .running ∧ ∃ t, exec (.addi .fetchSend false 2 0 0) drained = .next t ∧
      t.status = .error (.parameterUnderflow 1) := ⟨by decide, _, rfl, by decide⟩
/-- A state with a pending target, and the end of a run. -/
theorem test_witness_StepKeepsInvariant (slot : Slot) (h : slot = .branchDelay 8#32 ∨ slot = .exitDelay) :
    MachineInv { small [0x11#32] [0#32] [] with slot := slot } ∧
    ∃ t, step { small [0x11#32] [0#32] [] with slot := slot } = .next t := by
  rcases h with rfl | rfl
  · refine ⟨⟨by decide, by decide, ?_, by decide, by decide, by decide⟩, _, rfl⟩
    rintro target ⟨⟩
    decide
  · refine ⟨⟨by decide, by decide, ?_, by decide, by decide, by decide⟩, _, rfl⟩
    rintro target ⟨⟩
theorem test_witness_HostKeepsInvariant : MachineInv { drained with memory := store } :=
  ⟨by decide, by decide, by rintro target ⟨⟩, by decide, by decide, by decide⟩
/-- A slot pending while the core runs on. -/
theorem test_witness_SourceInvariantsHold :
    (1 : Nat) ≤ (small [0x11#32] [0#32] []).params.length ∧
    (Slot.branchDelay 8#32) ≠ .none ∧
    ∃ t, step { small [0x11#32] [0#32] [] with slot := .branchDelay 8#32 } = .next t ∧
      t.status = .running := ⟨by decide, by decide, _, rfl, rfl⟩
theorem test_witness_StepKeepsInputs : ∃ t, step (small [0x00014041#32] [0#32] []) = .next t := ⟨_, rfl⟩
/-- A step with two events: READ and a send. -/
theorem test_witness_TraceOnlyGrows :
    ∃ t, step (small [0x00040245#32] [0#32] [5#32]) = .next t ∧
      t.trace = [.read 0x10#32 5#32, .call 0#32 5#32] := ⟨_, rfl, by decide⟩
theorem test_witness_OnlyDestinationIsWritten :
    destination (.addi .move false 3 0 1) ≠ some 1#3 ∧
    ∃ t, exec (.addi .move false 3 0 1) drained = .next t := ⟨by decide, _, rfl⟩
theorem test_witness_CarryWrittenOnlyByArithmetic :
    writesCarry (.xor .move false 3 1 2) = false ∧
    ∃ t, exec (.xor .move false 3 1 2) { drained with carry := true } = .next t := ⟨by decide, _, rfl⟩
theorem test_witness_CarryReadOnlyByAdcSbb :
    readsCarry (.sub .move false 3 1 2) = false ∧
    ∃ t, exec (.sub .move false 3 1 2) drained = .next t := ⟨by decide, _, rfl⟩
/-- Two values that differ in bit 18 and above only. -/
theorem test_witness_UpperMethodBitsAreNeverRead :
    BitVec.extractLsb' 0 18 0xFFFC3FFF#32 = BitVec.extractLsb' 0 18 0x00003FFF#32 ∧
    ∃ t, exec (.addi .moveSend false 3 0 1) { drained with maddr := 0x00003FFF#32 } = .next t :=
  ⟨by decide, _, rfl⟩
theorem test_witness_CursorMovesByFetchesOnly :
    ∃ t, exec (.addi .fetchSend false 3 0 1) fetching = .next t ∧ t.cursor = 2 := ⟨_, rfl, by decide⟩
/-- The id itself, and the last word of a tail. -/
theorem test_witness_InvokeSetsPreState :
    store.bodies 0x20 ≠ [] ∧ store.bodies 0x22 ≠ [] := by decide
/-- The first id past the tail, and an id with a body. -/
theorem test_witness_InvokeErrorsBeforeStart :
    store.bodies 0x23 = [] ∧ store.bodies 0x22 ≠ [] := by decide
/-- Two engines that an earlier invocation has left in different states. -/
theorem test_witness_NoStateSurvivesAnInvocation :
    ({ drained with memory := store } : State) ≠ { fetching with memory := store, carry := true } ∧
    drained.cfg = fetching.cfg ∧ drained.draws = fetching.draws ∧
    ({ drained with memory := store }.invoke 0x20 [0#32] []).status = .running := by decide
/-- A canonical store; the clauses for the id itself, for a tail, and for no match; the last word of a
body. -/
theorem test_witness_CodeStoreAppendAndBodyFor :
    store.wf ∧ store.vec 0x20 ≠ none ∧ store.vec 0x22 = none ∧ 0x22 - 0x20 < 3 ∧
    ¬ 0x23 - 0x20 < 3 ∧ store.bodies 0x23 = [] ∧ store.bodies 0x22 ≠ [] ∧ [0#32] ≠ [] ∧
    (4#32 : Word).toNat = 4 * 1 ∧
    ({ small [0x11#32, 0x91#32] [0#32] [] with pc := 4#32 }).body[1]? = some 0x91#32 := by decide

end Sys2Proof.Tests
end

/-! The invariants of 10_state.md R31, read off from the four effects of an instruction
(`Effect`), and the start of an invocation (70_reset_and_hazards.md R230), which R29 rests on. -/

namespace Sys2Proof.Machine

open Sys2Proof.Safety

/-! ## What a branch and a step keep of the inputs -/

@[simp] theorem takeBranch_cursor (hit annul : Bool) (target : Word) (s : State) :
    (takeBranch hit annul target s).cursor = s.cursor := by
  cases hit <;> cases annul <;> rfl

theorem takeBranch_keepsInputs (hit annul : Bool) (target : Word) (s : State) :
    KeepsInputs s (takeBranch hit annul target s) := by
  cases hit <;> cases annul <;> exact ⟨rfl, rfl, rfl, rfl, rfl⟩

theorem raise_keepsInputs (e : ErrorKind) (s t : State) : KeepsInputs s (raise e s t) :=
  ⟨rfl, rfl, rfl, rfl, rfl⟩

theorem Effect.keepsInputs {i : Instr} {s t : State} (h : Effect i s t) : KeepsInputs s t := by
  cases h with
  | raised e pre u => exact raise_keepsInputs e s u
  | completed _ _ _ _ _ _ _ _ _ _ _ _ _ _ done => exact done.inputs
  | logged _ _ _ _ _ _ done => exact done.inputs
  | branched => exact takeBranch_keepsInputs _ _ _ s

/-! ## The cursor (10_state.md R26) -/

/-- A fetch that finds its parameter moves the cursor to the end of the parameters at most. -/
theorem cursor_le_of_delivered {rop : ResultOp} {d : RegIdx} {v : Word} {pre : List Event}
    {s t : State} (h : Delivered rop d v pre s t) (can : CanFetch rop s)
    (le : s.cursor ≤ s.params.length) : t.cursor ≤ s.params.length := by
  rw [h.cursor]
  split
  · exact can ‹_›
  · exact le

theorem Effect.cursor_le {i : Instr} {s t : State} (h : Effect i s t)
    (le : s.cursor ≤ s.params.length) : t.cursor ≤ s.params.length := by
  cases h with
  | raised => exact le
  | completed _ _ _ _ _ _ _ _ _ can _ _ _ _ done => exact cursor_le_of_delivered done.delivered can le
  | logged _ _ _ _ _ _ done => exact done.cursor ▸ le
  | branched => simpa using le

/-- A step keeps the cursor within the parameters. -/
theorem step_cursor_le {s t : State} (h : step s = .next t) (le : s.cursor ≤ s.params.length) :
    t.cursor ≤ t.params.length := by
  obtain ⟨-, ⟨w, -, effect⟩ | ⟨-, rfl⟩⟩ := step_effect h
  · rw [effect.keepsInputs.params]
    exact effect.cursor_le le
  · exact le

/-! ## The delay slot (40_sequencer.md R105 to R108) -/

/-- A branch's delay slot clears the slot; an exit's ends the run. -/
theorem slot_none_of_sequenced {isExit : Bool} {s t : State} (h : Sequenced isExit s t)
    (pending : s.slot ≠ .none) (running : t.status = .running) : t.slot = .none := by
  have status := h.status
  cases slot : s.slot with
  | none => exact absurd slot pending
  | branchDelay target => simpa [slot] using h.slot
  | exitDelay =>
    simp only [running, slot] at status
    split at status <;> cases status

/-- An instruction in a delay slot leaves no slot pending, unless it ends the run. -/
theorem Effect.slot_none {i : Instr} {s t : State} (h : Effect i s t)
    (pending : s.slot ≠ .none) (running : t.status = .running) : t.slot = .none := by
  cases h with
  | raised => cases running
  | completed _ _ _ _ _ _ _ _ _ _ _ _ _ _ done =>
    exact slot_none_of_sequenced done.sequenced pending running
  | logged _ _ _ _ _ _ done => exact slot_none_of_sequenced done.sequenced pending running
  | branched _ _ _ _ slot => exact absurd slot pending

theorem step_slot_none {s t : State} (h : step s = .next t)
    (pending : s.slot ≠ .none) (running : t.status = .running) : t.slot = .none := by
  obtain ⟨-, ⟨w, -, effect⟩ | ⟨-, rfl⟩⟩ := step_effect h
  · exact effect.slot_none pending running
  · cases running

/-! ## The increment of the method address (45_result_ops.md R189) -/

/-- The increment lies in the bits 31:12 that a send leaves. -/
theorem methodIncrement_advanceMethod (m : Word) :
    methodIncrement (advanceMethod m) = methodIncrement m := by
  have inUpper (w : Word) : methodIncrement w = (w.extractLsb' 12 20).extractLsb' 0 6 := by
    ext i hi
    simp [methodIncrement, show i < 20 by omega]
  rw [inUpper, advanceMethod_upper, ← inUpper]

/-! ## The start of an invocation (70_reset_and_hazards.md R230) -/

theorem State.invoke_unknown {s : State} {entry : Nat} (h : s.memory.bodies entry = [])
    (params answers : List Word) :
    s.invoke entry params answers = { s with trace := [], status := .error (.unknownMacro entry) } := by
  simp only [State.invoke, h]

theorem State.invoke_noParams {s : State} {entry : Nat} {first : List Word}
    {others : List (List Word)} (h : s.memory.bodies entry = first :: others)
    (answers : List Word) :
    s.invoke entry [] answers = { s with trace := [], status := .error (.parameterUnderflow 0) } := by
  simp only [State.invoke, h]

theorem State.invoke_start {s : State} {entry : Nat} {first : List Word}
    {others : List (List Word)} (h : s.memory.bodies entry = first :: others)
    (p : Word) (rest answers : List Word) :
    s.invoke entry (p :: rest) answers =
      { s with draws := s.draws + 1 }.start (pickBody s.draws first others) (p :: rest) answers p := by
  simp only [State.invoke, h]

/-- An invocation that runs has a body and a first parameter. -/
theorem State.invoke_running {s : State} {entry : Nat} {params answers : List Word}
    (h : (s.invoke entry params answers).status = .running) :
    ∃ first others p rest, s.memory.bodies entry = first :: others ∧ params = p :: rest := by
  cases bodies : s.memory.bodies entry with
  | nil =>
    rw [State.invoke_unknown bodies] at h
    cases h
  | cons first others =>
    cases params with
    | nil =>
      rw [State.invoke_noParams bodies] at h
      cases h
    | cons p rest => exact ⟨first, others, p, rest, rfl, rfl⟩

end Sys2Proof.Machine

namespace Sys2Proof.Proofs

open Sys2Proof.Machine

/-- Settles O40: each invariant of R31 from its own lemma over the step. -/
theorem sourceInvariantsHold : Obligations.SourceInvariantsHold := by
  intro s t le h
  exact ⟨State.reg_zero t, step_cursor_le h le, step_slot_none h,
    fun _ => methodIncrement_advanceMethod s.maddr⟩

/-- Settles O51: an invocation that runs is `State.start`, which overwrites every field but the three
the engines share. -/
theorem noStateSurvivesAnInvocation : Obligations.NoStateSurvivesAnInvocation := by
  intro s s' entry params answers memory cfg draws running
  obtain ⟨first, others, p, rest, bodies, rfl⟩ := State.invoke_running running
  rw [State.invoke_start bodies, State.invoke_start (memory ▸ bodies), ← draws]
  simp only [State.start, memory, cfg]

end Sys2Proof.Proofs

/-! The code store (20_memory.md R41): what a lookup finds after an append, which bodies an entry id
has, and which of them an invocation runs. -/

namespace Sys2Proof.Machine

/-! ## The vector of an id -/

@[simp] theorem Memory.vec_nil (k : Nat) : Memory.vec [] k = none := rfl

@[simp] theorem Memory.vec_cons (key : Nat) (v : List Word) (rest : Memory) (k : Nat) :
    Memory.vec ((key, v) :: rest) k = if k = key then some v else Memory.vec rest k := by
  by_cases same : k = key
  · simp [Memory.vec, same]
  · simp [Memory.vec, List.lookup_cons, beq_eq_false_iff_ne.mpr same, same]

theorem Memory.wf_cons {key : Nat} {v : List Word} {rest : Memory} :
    Memory.wf ((key, v) :: rest) ↔ (∀ k ∈ rest.map Prod.fst, key < k) ∧ rest.wf := by
  simp only [Memory.wf, List.map_cons, List.pairwise_cons]

/-- Only a key has a vector. -/
theorem Memory.mem_of_vec {m : Memory} {k : Nat} {v : List Word} (h : m.vec k = some v) :
    (k, v) ∈ m := by
  induction m with
  | nil => cases h
  | cons kv rest ih =>
    obtain ⟨key, u⟩ := kv
    rw [Memory.vec_cons] at h
    split at h
    · simp_all
    · exact List.mem_cons_of_mem _ (ih h)

/-- An id below every key has no vector. -/
theorem Memory.vec_eq_none_of_lt {m : Memory} {id : Nat} (h : ∀ k ∈ m.map Prod.fst, id < k) :
    m.vec id = none :=
  Option.eq_none_iff_forall_ne_some.mpr fun _ found =>
    Nat.lt_irrefl id (h id (List.mem_map_of_mem (Memory.mem_of_vec found)))

/-- The entries of a canonical store are the vectors of its ids. -/
theorem Memory.mem_iff_vec {m : Memory} (h : m.wf) {k : Nat} {v : List Word} :
    (k, v) ∈ m ↔ m.vec k = some v := by
  refine ⟨fun mem => ?_, Memory.mem_of_vec⟩
  induction m with
  | nil => cases mem
  | cons kv rest ih =>
    obtain ⟨key, u⟩ := kv
    obtain ⟨below, wf⟩ := Memory.wf_cons.mp h
    rw [Memory.vec_cons]
    rcases List.mem_cons.mp mem with eq | mem
    · cases eq
      exact if_pos rfl
    · have := below k (List.mem_map_of_mem mem)
      rw [if_neg (by omega), ih wf mem]

/-! ## Append -/

/-- `append` pushes one word onto the vector of its id, which is empty where the id is new, and leaves
the other vectors. -/
theorem Memory.vec_append {m : Memory} (h : m.wf) (id : Nat) (w : Word) (k : Nat) :
    (m.append id w).vec k = if k = id then some ((m.vec id).getD [] ++ [w]) else m.vec k := by
  induction m with
  | nil => simp [Memory.append]
  | cons kv rest ih =>
    obtain ⟨key, v⟩ := kv
    obtain ⟨below, wf⟩ := Memory.wf_cons.mp h
    rcases Nat.lt_trichotomy id key with less | rfl | greater
    · have new : Memory.vec rest id = none :=
        Memory.vec_eq_none_of_lt fun k mem => Nat.lt_trans less (below k mem)
      simp [Memory.append, less, less.ne, new]
    · by_cases same : k = id <;> simp [Memory.append, same]
    · by_cases same : k = key
      · simp [Memory.append, same, greater.not_gt, greater.ne', greater.ne]
      · simp [Memory.append, same, greater.not_gt, greater.ne', ih wf]

/-! ## The bodies of an entry id -/

theorem tailFor_eq_some_iff {entry k : Nat} {v body : List Word} :
    tailFor entry (k, v) = some body ↔
      k < entry ∧ entry - k < v.length ∧ body = v.drop (entry - k) := by
  simp [tailFor, and_assoc, eq_comm]

theorem Memory.bodies_of_vec {m : Memory} {entry : Nat} {v : List Word} (h : m.vec entry = some v) :
    m.bodies entry = [v] := by
  simp only [Memory.bodies, h]

theorem Memory.bodies_of_no_vec {m : Memory} {entry : Nat} (h : m.vec entry = none) :
    m.bodies entry = m.filterMap (tailFor entry) := by
  simp only [Memory.bodies, h]

/-- The bodies of an entry id: its own vector, else the tails that smaller keys offer it. -/
theorem Memory.mem_bodies {m : Memory} (h : m.wf) {entry : Nat} {body : List Word} :
    body ∈ m.bodies entry ↔
      m.vec entry = some body ∨
        (m.vec entry = none ∧ ∃ k v, m.vec k = some v ∧ k < entry ∧ entry - k < v.length ∧
          body = v.drop (entry - k)) := by
  cases own : m.vec entry with
  | some v => simp [Memory.bodies_of_vec own, eq_comm]
  | none =>
    simp [Memory.bodies_of_no_vec own, List.mem_filterMap, tailFor_eq_some_iff, Memory.mem_iff_vec h]

/-! ## The body an invocation runs -/

/-- The free choice is one of the bodies. -/
theorem pickBody_mem (draws : Nat) (first : List Word) (others : List (List Word)) :
    pickBody draws first others ∈ first :: others := by
  unfold pickBody
  split
  · exact List.mem_cons_self
  · have inside : Config.freePick draws % (others.length + 1) < (first :: others).length :=
      Nat.mod_lt _ others.length.succ_pos
    exact List.getD_eq_getElem _ _ inside ▸ List.getElem_mem inside

theorem State.invoke_body_mem {s : State} {entry : Nat} {params : List Word}
    (found : s.memory.bodies entry ≠ []) (supplied : params ≠ []) (answers : List Word) :
    (s.invoke entry params answers).body ∈ s.memory.bodies entry := by
  obtain ⟨first, others, bodies⟩ := List.exists_cons_of_ne_nil found
  obtain ⟨p, rest, rfl⟩ := List.exists_cons_of_ne_nil supplied
  rw [State.invoke_start bodies, bodies]
  exact pickBody_mem s.draws first others

/-- Word `k` of the body stands at byte offset `4 * k`. -/
theorem fetch_word {s : State} {k : Nat} {w : Word} (pc : s.pc.toNat = 4 * k)
    (word : s.body[k]? = some w) : fetch s = .ok w := by
  refine fetch_ok ?_
  rwa [pc, Nat.mul_div_cancel_left k (by decide)]

end Sys2Proof.Machine

namespace Sys2Proof.Proofs

open Sys2Proof.Machine

/-- Settles O52: the append, the lookup, the start on a body and the fetch of a word, each by its own
lemma. -/
theorem codeStoreAppendAndBodyFor : Obligations.CodeStoreAppendAndBodyFor := by
  refine ⟨fun m id w wf => ⟨Memory.vec_append wf id w, fun entry body => Memory.mem_bodies wf⟩,
    fun s entry params answers => ⟨fun unknown => ?_, fun found supplied => ?_⟩,
    fun s k w => fetch_word⟩
  · rw [State.invoke_unknown unknown]
    exact ⟨rfl, rfl⟩
  · exact State.invoke_body_mem found supplied answers

end Sys2Proof.Proofs

/-! The words that `assemble` gives: the value of each format as the sum of its fields at their places
(30_encoding.md R87), and each format filled with the fields of a word as that word masked (R72). -/

namespace Sys2Proof

open Sys2Proof.Safety

/-! ## The value of a format -/

/-- A format filled from bit 0 upwards: the word has the value `value`, which bits below `top` hold. -/
structure FilledTo (top value : Nat) (w : Word) : Prop where
  toNat_eq : w.toNat = value
  value_lt : value < 2 ^ top

/-- A field placed at or above the filled bits adds its value at its place. -/
theorem FilledTo.place {top value n : Nat} {acc : Word} (h : FilledTo top value acc) (v : BitVec n)
    (lo : Nat) (above : top ≤ lo := by decide) (fits : lo + n ≤ 32 := by decide) :
    FilledTo (lo + n) (value + v.toNat * 2 ^ lo) (acc ||| place v lo) := by
  have below : value < 2 ^ lo := h.value_lt.trans_le (Nat.pow_le_pow_right (by decide) above)
  constructor
  · rw [toNat_or_place v lo fits (h.toNat_eq ▸ below), h.toNat_eq]
  · calc value + v.toNat * 2 ^ lo
        < (v.toNat + 1) * 2 ^ lo := by rw [Nat.succ_mul]; omega
      _ ≤ 2 ^ n * 2 ^ lo := Nat.mul_le_mul_right _ v.isLt
      _ = 2 ^ (lo + n) := by rw [Nat.pow_add, Nat.mul_comm]

theorem filledTo_operation (op : BitVec 3) : FilledTo 3 op.toNat (place op 0) := by
  have filled : FilledTo 0 0 0#32 := ⟨rfl, by decide⟩
  simpa using filled.place op 0

theorem filledTo_encodeLow (op : BitVec 3) (rop : ResultOp) (x : Bool) (d : RegIdx) :
    FilledTo 11 (op.toNat + lowSum rop x d) (encodeLow op rop x d) := by
  have filled := (((filledTo_operation op).place rop.code 4).place (BitVec.ofBool x) 7).place d 8
  simpa only [encodeLow, lowSum, BitVec.toNat_ofBool, Nat.add_assoc] using filled

theorem toNat_encodeAlu (alu : Field5) (rop : ResultOp) (x : Bool) (d a b : RegIdx) :
    (encodeAlu alu rop x d a b).toNat = aluSum alu.toNat rop x d a b := by
  have filled := (((filledTo_encodeLow 0#3 rop x d).place a 11).place b 14).place alu 17
  rw [encodeAlu, filled.toNat_eq, aluSum, BitVec.toNat_zero, Nat.zero_add]

theorem toNat_encodeImm (op : BitVec 3) (rop : ResultOp) (x : Bool) (d a : RegIdx) (imm : Imm18) :
    (encodeImm op rop x d a imm).toNat =
      op.toNat + lowSum rop x d + a.toNat * 2 ^ 11 + imm.toNat * 2 ^ 14 :=
  (((filledTo_encodeLow op rop x d).place a 11).place imm 14).toNat_eq

theorem toNat_encodeBitfield (op : BitVec 3) (rop : ResultOp) (x : Bool) (d a b : RegIdx)
    (sb sz db : Field5) :
    (encodeBitfield op rop x d a b sb sz db).toNat =
      op.toNat + lowSum rop x d + a.toNat * 2 ^ 11 + b.toNat * 2 ^ 14 + sb.toNat * 2 ^ 17 +
        sz.toNat * 2 ^ 22 + db.toNat * 2 ^ 27 :=
  ((((((filledTo_encodeLow op rop x d).place a 11).place b 14).place sb 17).place sz 22).place
    db 27).toNat_eq

theorem toNat_encodeBranch (cond annul : Bool) (a : RegIdx) (imm : Imm18) :
    (encodeBranch cond annul a imm).toNat =
      7 + cond.toNat * 2 ^ 4 + annul.toNat * 2 ^ 5 + a.toNat * 2 ^ 11 + imm.toNat * 2 ^ 14 := by
  have filled := ((((filledTo_operation 7#3).place (BitVec.ofBool cond) 4).place
    (BitVec.ofBool annul) 5).place a 11).place imm 14
  rw [encodeBranch, filled.toNat_eq, BitVec.toNat_ofBool, BitVec.toNat_ofBool]
  rfl

theorem toNat_encodeReserved (x : Bool) : (encodeReserved x).toNat = 6 + x.toNat * 2 ^ 7 := by
  cases x <;> rfl

/-! ## A format filled with the fields of a word (R72) -/

/-- Placing a field of a word back at its own place masks the word. -/
theorem place_extractLsb' (w : Word) (lo n : Nat) :
    place (w.extractLsb' lo n) lo = w &&& place (BitVec.allOnes n) lo := by
  apply BitVec.eq_of_getLsbD_eq
  intro i hi
  simp only [BitVec.getLsbD_and, getLsbD_place, BitVec.getLsbD_extractLsb', BitVec.getLsbD_allOnes]
  by_cases inside : lo ≤ i
  · simp [hi, inside, Nat.add_sub_cancel' inside, Bool.and_comm]
  · simp [inside]

/-- A field of a word placed beside a part of the word widens the part's mask by the field. -/
theorem masked_or_place (w mask : Word) (lo n : Nat) :
    w &&& mask ||| place (w.extractLsb' lo n) lo = w &&& (mask ||| place (BitVec.allOnes n) lo) := by
  rw [place_extractLsb', BitVec.and_or_distrib_left]

@[simp] theorem place_zero (n lo : Nat) : place 0#n lo = 0#32 := by
  simp [place]

/-- A one-bit field as a field of width 1. -/
theorem ofBool_getLsbD (w : Word) (i : Nat) : BitVec.ofBool (w.getLsbD i) = w.extractLsb' i 1 := by
  ext k hk
  obtain rfl : k = 0 := by omega
  simp

@[simp] theorem ResultOp.code_ofCode (c : BitVec 3) : (ResultOp.ofCode c).code = c := by
  revert c
  decide

theorem encodeLow_fields {w : Word} {op : BitVec 3} (operation : fieldOperation w = op) :
    encodeLow op (ResultOp.ofCode (fieldResultOp w)) (fieldIsExit w) (fieldDst w) =
      w &&& 0x000007F7#32 := by
  rw [← operation]
  simp only [encodeLow, ResultOp.code_ofCode, fieldOperation, fieldResultOp, fieldIsExit, fieldDst,
    ofBool_getLsbD, place_extractLsb' w 0, masked_or_place]
  rfl

theorem encodeAlu_fields {w : Word} (operation : fieldOperation w = 0#3) :
    encodeAlu (fieldAluOp w) (ResultOp.ofCode (fieldResultOp w)) (fieldIsExit w) (fieldDst w)
      (fieldSrcA w) (fieldSrcB w) = w &&& 0x003FFFF7#32 := by
  simp only [encodeAlu, encodeLow_fields operation, fieldSrcA, fieldSrcB, fieldAluOp, masked_or_place]
  rfl

theorem encodeImm_fields {w : Word} {op : BitVec 3} (operation : fieldOperation w = op) :
    encodeImm op (ResultOp.ofCode (fieldResultOp w)) (fieldIsExit w) (fieldDst w) (fieldSrcA w)
      (fieldImm w) = w &&& 0xFFFFFFF7#32 := by
  simp only [encodeImm, encodeLow_fields operation, fieldSrcA, fieldImm, masked_or_place]
  rfl

theorem encodeBitfield_fields {w : Word} {op : BitVec 3} (operation : fieldOperation w = op) :
    encodeBitfield op (ResultOp.ofCode (fieldResultOp w)) (fieldIsExit w) (fieldDst w) (fieldSrcA w)
      (fieldSrcB w) (fieldSrcBit w) (fieldSize w) (fieldDstBit w) = w &&& 0xFFFFFFF7#32 := by
  simp only [encodeBitfield, encodeLow_fields operation, fieldSrcA, fieldSrcB, fieldSrcBit, fieldSize,
    fieldDstBit, masked_or_place]
  rfl

theorem encodeBitfield_fields_noSrcBit {w : Word} {op : BitVec 3} (operation : fieldOperation w = op) :
    encodeBitfield op (ResultOp.ofCode (fieldResultOp w)) (fieldIsExit w) (fieldDst w) (fieldSrcA w)
      (fieldSrcB w) 0#5 (fieldSize w) (fieldDstBit w) = w &&& 0xFFC1FFF7#32 := by
  simp only [encodeBitfield, encodeLow_fields operation, fieldSrcA, fieldSrcB, fieldSize,
    fieldDstBit, place_zero, BitVec.or_zero, masked_or_place]
  rfl

theorem encodeBitfield_fields_noDstBit {w : Word} {op : BitVec 3} (operation : fieldOperation w = op) :
    encodeBitfield op (ResultOp.ofCode (fieldResultOp w)) (fieldIsExit w) (fieldDst w) (fieldSrcA w)
      (fieldSrcB w) (fieldSrcBit w) (fieldSize w) 0#5 = w &&& 0x07FFFFF7#32 := by
  simp only [encodeBitfield, encodeLow_fields operation, fieldSrcA, fieldSrcB, fieldSrcBit, fieldSize,
    place_zero, BitVec.or_zero, masked_or_place]
  rfl

theorem encodeReserved_fields {w : Word} (operation : fieldOperation w = 6#3) :
    encodeReserved (fieldIsExit w) = w &&& 0x00000087#32 := by
  rw [encodeReserved, ← operation]
  simp only [fieldOperation, fieldIsExit, ofBool_getLsbD, place_extractLsb' w 0, masked_or_place]
  rfl

theorem encodeBranch_fields {w : Word} (operation : fieldOperation w = 7#3) :
    encodeBranch (fieldBranchCond w) (fieldBranchAnnul w) (fieldSrcA w) (fieldImm w) =
      w &&& 0xFFFFF837#32 := by
  rw [encodeBranch, ← operation]
  simp only [fieldOperation, fieldBranchCond, fieldBranchAnnul, fieldSrcA, fieldImm, ofBool_getLsbD,
    place_extractLsb' w 0, masked_or_place]
  rfl

/-! ## What a word decodes to, assembled -/

/-- Every ALU word is assembled in the ALU format, with its own code (R85). -/
theorem assemble_decodeAlu (w : Word) :
    assemble (decodeAlu w) = encodeAlu (fieldAluOp w) (ResultOp.ofCode (fieldResultOp w))
      (fieldIsExit w) (fieldDst w) (fieldSrcA w) (fieldSrcB w) := by
  unfold decodeAlu
  split
  case h_10 => rfl
  case h_11 =>
    split
    · rfl
    · split <;> rfl
  all_goals
    rename_i code
    rw [(BitVec.toNat_eq_nat.mp code).2]
    rfl

theorem fieldBits_decodeAlu (w : Word) : fieldBits (decodeAlu w) = 0x003FFFF7#32 := by
  unfold decodeAlu
  repeat' split
  all_goals rfl

end Sys2Proof

namespace Sys2Proof.Proofs

open Sys2Proof.Safety

/-- Settles O55: each instruction by the value of its format. -/
theorem assembledWordIsTheFormula : Obligations.AssembledWordIsTheFormula := by
  intro i
  cases i with
  | add r x d a b | adc r x d a b | sub r x d a b | sbb r x d a b | xor r x d a b | or r x d a b
  | and r x d a b | andnot r x d a b | nand r x d a b => exact toNat_encodeAlu _ r x d a b
  | aluReserved47 r x d w | aluUnrecognised13 r x d w | aluUnrecognised1415 r x d w
  | aluUnrecognised1631 r x d w => exact toNat_encodeAlu _ r x d _ _
  | addi r x d a imm | read r x d a imm => exact toNat_encodeImm _ r x d a imm
  | extins r x d a b sb sz db => exact toNat_encodeBitfield 2#3 r x d a b sb sz db
  | extshli r x d a b sz db =>
    simpa [assemble, formula] using toNat_encodeBitfield 3#3 r x d a b 0#5 sz db
  | extshlr r x d a b sb sz =>
    simpa [assemble, formula] using toNat_encodeBitfield 4#3 r x d a b sb sz 0#5
  | rsvd x w => exact toNat_encodeReserved x
  | bz annul a imm => simpa [assemble, formula] using toNat_encodeBranch false annul a imm
  | bnz annul a imm => simpa [assemble, formula] using toNat_encodeBranch true annul a imm

/-- Settles O56: each operation by its format, filled with the fields of the word. -/
theorem assembleOfDecodeKeepsFieldBits : Obligations.AssembleOfDecodeKeepsFieldBits := by
  intro w
  unfold decode
  split
  case h_1 op =>
    rw [assemble_decodeAlu, fieldBits_decodeAlu]
    exact encodeAlu_fields (BitVec.eq_of_toNat_eq op)
  case h_2 op | h_6 op => exact encodeImm_fields (BitVec.eq_of_toNat_eq op)
  case h_3 op => exact encodeBitfield_fields (BitVec.eq_of_toNat_eq op)
  case h_4 op => exact encodeBitfield_fields_noSrcBit (BitVec.eq_of_toNat_eq op)
  case h_5 op => exact encodeBitfield_fields_noDstBit (BitVec.eq_of_toNat_eq op)
  case h_7 op => exact encodeReserved_fields (BitVec.eq_of_toNat_eq op)
  case h_8 =>
    have op : (fieldOperation w).toNat = 7 := by
      simp only [imp_false] at *
      omega
    have format := encodeBranch_fields (BitVec.eq_of_toNat_eq op)
    split
    case isTrue cond => rwa [cond] at format
    case isFalse cond => rwa [Bool.eq_false_of_not_eq_true cond] at format

end Sys2Proof.Proofs

/-! Delay slots and the end of a run (40_sequencer.md R104 to R108): a BRANCH in a slot raises, the exit
bit of a slot's instruction is not read, and an exit's slot compares the cursor with the parameter
count. -/

namespace Sys2Proof.Machine

open Sys2Proof.Safety

/-! ## A step by what its fetch finds (40_sequencer.md R100) -/

theorem step_word {s : State} {w : Word} (running : s.status = .running)
    (word : s.body[s.pc.toNat / 4]? = some w) : step s = exec (decode w) s := by
  simp only [step, running, fetch_ok word]

theorem step_out {s : State} (running : s.status = .running)
    (out : 4 * s.body.length ≤ s.pc.toNat) : step s = .next (raise (.fetchOutOfRange s.pc) s s) := by
  simp only [step, running, fetch_out out]

/-! ## BRANCH in a delay slot (40_sequencer.md R104) -/

theorem branch_of_pending {s : State} (pending : s.slot ≠ .none) (nonzero annul : Bool) (a : RegIdx)
    (imm : Imm18) : branch nonzero annul a imm s = .next (raise (.badDelaySlot s.pc) s s) := by
  unfold branch
  split
  · exact absurd ‹_› pending
  · rfl
  · rfl

/-- A word of operation 7 is BZ or BNZ (30_encoding.md R73, R76), so it executes as a branch. -/
theorem exec_decode_branch {w : Word} (op : fieldOperation w = 7#3) (s : State) :
    exec (decode w) s =
      branch (fieldBranchCond w) (fieldBranchAnnul w) (fieldSrcA w) (fieldImm w) s := by
  simp only [decode, op]
  cases fieldBranchCond w <;> rfl

/-! ## The exit bit in a delay slot (40_sequencer.md R107) -/

theorem retire_of_pending {t : State} (pending : t.slot ≠ .none) (x y : Bool) :
    retire x t = retire y t := by
  unfold retire
  split
  · exact absurd ‹_› pending
  · rfl
  · rfl

theorem Ahead.slot {pre : List Event} {s t : State} (h : Ahead pre s t) : t.slot = s.slot := by
  obtain ⟨answers, draws, rfl⟩ := h
  rfl

/-- The result operation leaves the slot pending, so `retire` does not read the exit bit; an underflow
does not come to `retire`. -/
theorem produce_of_pending {s t : State} {pre : List Event} (ahead : Ahead pre s t)
    (pending : s.slot ≠ .none) (x y : Bool) (rop : ResultOp) (d : RegIdx) (v : Word)
    (c : Option Bool) : produce rop x d v c s t = produce rop y d v c s t := by
  by_cases can : CanFetch rop t
  · obtain ⟨u, apply, -, control⟩ := applyResult_ok (d := d) (v := v) can
    have uSlot : (u.setCarry c).slot ≠ .none := by
      rwa [State.setCarry_slot, control.slot, ahead.slot]
    simp only [produce, apply, Except.map, conclude, retire_of_pending uSlot x y]
  · obtain ⟨fetch, none⟩ : fetches rop = true ∧ t.params.length ≤ t.cursor := by
      simpa [CanFetch, Nat.not_lt] using can
    simp only [produce, applyResult_underflow fetch none, Except.map, conclude]

/-- A diagnostic leaves the slot pending. -/
theorem conclude_emit_of_pending {s : State} (pending : s.slot ≠ .none) (x y : Bool) (e : Event) :
    conclude x s (s.emit e) (.ok (s.emit e)) = conclude y s (s.emit e) (.ok (s.emit e)) :=
  congrArg Host.Outcome.next (retire_of_pending (t := s.emit e) pending x y)

theorem aluUnknown_of_pending {s : State} (pending : s.slot ≠ .none) (x y : Bool) (rop : ResultOp)
    (d : RegIdx) (w : Word) : aluUnknown rop x d w s = aluUnknown rop y d w s := by
  unfold aluUnknown
  cases s.cfg.unknownAlu with
  | nop => exact conclude_emit_of_pending pending x y _
  | resultZero => exact produce_of_pending ((Ahead.refl s).emit _) pending x y rop d _ _

theorem execRead_of_pending {s : State} (pending : s.slot ≠ .none) (x y : Bool) (rop : ResultOp)
    (d a : RegIdx) (imm : Imm18) : execRead rop x d a imm s = execRead rop y d a imm s := by
  unfold execRead
  by_cases inRange : (s.reg a + sext18 imm).toNat < s.cfg.numGpuRegs
  · simp only [bankRead_ok inRange]
    exact produce_of_pending ((bankAnswer_ahead s).emit _) pending x y rop d _ _
  · simp only [bankRead_out (Nat.not_lt.mp inRange), conclude]

/-! ## What an instruction leaves in the trace, and how it ends -/

/-- An instruction only appends to the trace (20_memory.md R49), whether or not it raises. -/
theorem Effect.trace_prefix {i : Instr} {s t : State} (h : Effect i s t) : s.trace <+: t.trace := by
  cases h with
  | raised _ pre _ ahead =>
    obtain ⟨answers, draws, rfl⟩ := ahead
    exact List.prefix_append s.trace pre
  | completed _ _ _ _ _ _ _ _ _ _ _ _ _ _ done =>
    rw [done.delivered.trace, List.append_assoc]
    exact List.prefix_append _ _
  | logged _ _ _ _ _ _ done =>
    rw [done.trace]
    exact List.prefix_append _ _
  | branched hit annul => cases hit <;> cases annul <;> exact List.prefix_rfl

/-- An instruction in a delay slot that raises nothing is no BRANCH, so it is sequenced by its slot. -/
theorem Effect.sequenced {i : Instr} {s t : State} (h : Effect i s t) (pending : s.slot ≠ .none)
    (quiet : ¬ Raised t) : Sequenced (exitBit i) s t := by
  cases h with
  | raised e _ _ _ _ why => exact absurd ⟨e, rfl, why.kind⟩ quiet
  | completed _ _ _ _ _ _ _ _ _ _ _ _ _ _ done => exact done.sequenced
  | logged _ _ _ _ _ _ done => exact done.sequenced
  | branched _ _ _ _ slot => exact absurd slot pending

end Sys2Proof.Machine

namespace Sys2Proof.Proofs

open Sys2Proof.Machine Sys2Proof.Safety

/-- Settles O27: `branch` with a slot pending, reached from BZ, from BNZ and from a fetched word of
operation 7; the fetch that fails comes before the decoding. -/
theorem branchInDelaySlotRaises : Obligations.BranchInDelaySlotRaises := by
  refine ⟨fun annul a imm s pending => ⟨?_, ?_⟩, fun s pending running => ⟨fun w word op => ?_, ?_⟩⟩
  · exact branch_of_pending pending false annul a imm
  · exact branch_of_pending pending true annul a imm
  · rw [step_word running word, exec_decode_branch op]
    exact branch_of_pending pending _ _ _ _
  · exact step_out running

/-- Settles O29: with a slot pending, no way an instruction concludes reads its exit bit. -/
theorem exitBitIgnoredInDelaySlot : Obligations.ExitBitIgnoredInDelaySlot := by
  intro i s x pending
  cases i with
  | add rop y d a b | adc rop y d a b | sub rop y d a b | sbb rop y d a b | xor rop y d a b
  | or rop y d a b | and rop y d a b | andnot rop y d a b | nand rop y d a b
  | addi rop y d a imm | extins rop y d a b sb sz db =>
    exact produce_of_pending (Ahead.refl s) pending x y rop d _ _
  | aluReserved47 rop y d w | aluUnrecognised13 rop y d w | aluUnrecognised1415 rop y d w
  | aluUnrecognised1631 rop y d w => exact aluUnknown_of_pending pending x y rop d w
  | extshli rop y d a b sz db | extshlr rop y d a b sb sz =>
    exact produce_of_pending (shiftValue_ahead _ _ s) pending x y rop d _ _
  | read rop y d a imm => exact execRead_of_pending pending x y rop d a imm
  | rsvd y w => exact conclude_emit_of_pending pending x y _
  | bz annul a imm | bnz annul a imm => rfl

/-- Settles O31: the status is the one `Finish` gives an instruction sequenced in an exit's slot; the
trace and the cursor are as after any instruction. -/
theorem finishChecksParameterCount : Obligations.FinishChecksParameterCount := by
  intro i s t slot h quiet
  have effect := effect_of_exec h
  have status := (effect.sequenced (by simp [slot]) quiet).status
  exact ⟨by simpa only [slot] using status, effect.trace_prefix, effect.cursor_le⟩

end Sys2Proof.Proofs

/-! The ALU functions (41_alu.md R120, R121): their words, and what an instruction does that has computed
its value from the registers alone. -/

namespace Sys2Proof

open Sys2Proof.Safety

/-! ## ALU words (30_encoding.md R73, R75) -/

theorem decode_of_operation_zero {w : Word} (operation : fieldOperation w = 0#3) :
    decode w = decodeAlu w := by
  simp only [decode, operation]
  rfl

theorem aluEncoding_add : AluEncoding 0 .add := by
  intro w operation code
  rw [decode_of_operation_zero operation]
  simp only [decodeAlu, fieldAluOp, code]
  rfl

end Sys2Proof

namespace Sys2Proof.Machine

open Sys2Proof.Safety

/-! ## Value and carry -/

/-- ADD is the sum modulo 2^32 and its unsigned overflow (R121). -/
theorem aluAdd_eq (a b : Word) : aluAdd a b = (a + b, decide (2 ^ 32 ≤ a.toNat + b.toNat)) := by
  simp only [aluAdd, ofNat_exactSum]
  simp [sumCarry, exactSum]

/-- An instruction that applies its result operation to `v` and leaves the flag `c`, having drawn and
logged nothing before, follows the shape of R120 in both of its cases. -/
theorem produces_of_exec_eq {i : Instr} {rop : ResultOp} {x : Bool} {d : RegIdx} {v : Word}
    {c : Option Bool} {s : State} (meaning : exec i s = produce rop x d v c s s) :
    Produces i rop x d v (c.getD s.carry) s := by
  unfold Produces
  rw [meaning]
  constructor
  · intro can
    obtain ⟨t, next, completes, answers, draws⟩ := produce_completes (Ahead.refl s) can
    exact ⟨t, next, completes, answers, draws⟩
  · exact produce_underflow (Ahead.refl s)

end Sys2Proof.Machine

namespace Sys2Proof.Proofs

open Sys2Proof.Machine

/-- Settles O7: ADD produces the pair of `aluAdd`, which is the sum and its overflow. -/
theorem addGivesSumAndCarryOut : Obligations.AddGivesSumAndCarryOut := by
  refine ⟨aluEncoding_add, fun rop x d a b s => ?_⟩
  have meaning : exec (.add rop x d a b) s =
      aluFlagged (s.reg a + s.reg b, decide (2 ^ 32 ≤ (s.reg a).toNat + (s.reg b).toNat)) rop x d s :=
    congrArg (aluFlagged · rop x d s) (aluAdd_eq (s.reg a) (s.reg b))
  exact produces_of_exec_eq meaning

end Sys2Proof.Proofs

/-! ADD_IMM (42_immediate_bitfield.md R140): its words, and its sum. -/

namespace Sys2Proof

open Sys2Proof.Safety

/-- The words of operation 1 (30_encoding.md R73). -/
theorem decode_of_operation_one {w : Word} (operation : fieldOperation w = 1#3) :
    decode w = fromFields Instr.addi w (fieldImm w) := by
  simp only [decode, operation]
  rfl

end Sys2Proof

namespace Sys2Proof.Machine

open Sys2Proof.Safety

/-- ADD_IMM produces the sum with the sign-extended immediate and does not write carry (R140). -/
theorem exec_addi (rop : ResultOp) (x : Bool) (d a : RegIdx) (imm : Imm18) (s : State) :
    exec (.addi rop x d a imm) s = produce rop x d (plusImm (s.reg a) imm 1) none s s := by
  rw [← add_sext18]
  rfl

end Sys2Proof.Machine

namespace Sys2Proof.Proofs

open Sys2Proof.Machine

/-- Settles O14: the words of operation 1, and the shape of R120 for an instruction that leaves carry
as it is. -/
theorem addImmediateAddsSignedField : Obligations.AddImmediateAddsSignedField :=
  ⟨fun _ operation => decode_of_operation_one operation,
    fun rop x d a imm s => produces_of_exec_eq (exec_addi rop x d a imm s)⟩

end Sys2Proof.Proofs

/-! READ (43_read.md R160, R161): its words, the bank's answer, and what it does with an index inside
and outside the register space. -/

namespace Sys2Proof

open Sys2Proof.Safety

/-- The words of operation 5 (30_encoding.md R73). -/
theorem decode_of_operation_five {w : Word} (operation : fieldOperation w = 5#3) :
    decode w = fromFields Instr.read w (fieldImm w) := by
  simp only [decode, operation]
  rfl

end Sys2Proof

namespace Sys2Proof.Machine

open Sys2Proof.Safety

/-! ## The register bank (20_memory.md R46) -/

/-- The bank's answer, and the answer or free value taken for it. -/
theorem bankAnswer_eq (s : State) : bankAnswer s =
    (readAnswer s, { s with answers := s.answers.tail, draws := readDraws s }) := by
  cases answers : s.answers with
  | nil => simp [bankAnswer, readAnswer, readDraws, answers]
  | cons v rest => simp [bankAnswer, readAnswer, readDraws, answers]

/-! ## The two cases of the range check (43_read.md R160) -/

/-- Inside the register space READ produces the answer, after its event, and does not write carry. -/
theorem exec_read_of_inRange {a : RegIdx} {imm : Imm18} {s : State}
    (inRange : (plusImm (s.reg a) imm 1).toNat < s.cfg.numGpuRegs) (rop : ResultOp) (x : Bool)
    (d : RegIdx) :
    exec (.read rop x d a imm) s = produce rop x d (readAnswer s) none s
      ((bankAnswer s).2.emit (.read (plusImm (s.reg a) imm 1) (readAnswer s))) := by
  rw [show readAnswer s = (bankAnswer s).1 by rw [bankAnswer_eq]]
  simp only [exec, execRead, add_sext18, bankRead_ok inRange]

/-- Outside the register space READ raises and logs nothing (60_exceptions.md R205, R210). -/
theorem exec_read_of_outOfRange {a : RegIdx} {imm : Imm18} {s : State}
    (outOfRange : s.cfg.numGpuRegs ≤ (plusImm (s.reg a) imm 1).toNat) (rop : ResultOp) (x : Bool)
    (d : RegIdx) :
    exec (.read rop x d a imm) s =
      .next (raise (.registerOutOfRange (plusImm (s.reg a) imm 1)) s s) := by
  simp only [exec, execRead, add_sext18, bankRead_out outOfRange, conclude]

end Sys2Proof.Machine

namespace Sys2Proof.Proofs

open Sys2Proof.Machine Sys2Proof.Safety

/-- Settles O20: the words of operation 5; inside the register space READ is `produce` on the answer,
ahead by its event, which completes or underflows; outside it raises at once. -/
theorem readDeliversBankAnswer : Obligations.ReadDeliversBankAnswer := by
  refine ⟨fun _ operation => decode_of_operation_five operation, fun rop x d a imm s =>
    ⟨fun inRange => ?_, fun outOfRange => exec_read_of_outOfRange outOfRange rop x d⟩⟩
  have ahead := (bankAnswer_ahead s).emit (.read (plusImm (s.reg a) imm 1) (readAnswer s))
  rw [exec_read_of_inRange inRange]
  rw [bankAnswer_eq] at ahead ⊢
  exact ⟨produce_completes ahead, produce_underflow ahead⟩

end Sys2Proof.Proofs

/-! BRANCH outside a delay slot (44_branch.md R170 to R174): its words, its condition, and where it goes. -/

namespace Sys2Proof

/-- The words of operation 7, by their condition bit (30_encoding.md R73, R76). -/
theorem decode_of_operation_seven {w : Word} (operation : fieldOperation w = 7#3) :
    decode w = (if fieldBranchCond w then Instr.bnz else Instr.bz)
      (fieldBranchAnnul w) (fieldSrcA w) (fieldImm w) := by
  simp only [decode, operation]
  cases fieldBranchCond w <;> rfl

end Sys2Proof

namespace Sys2Proof.Machine

open Sys2Proof.Safety

/-! ## The condition (44_branch.md R170), by when it misses -/

theorem condHit_zero (v : Word) : condHit false v = !decide (v ≠ 0#32) := by
  by_cases zero : v = 0#32 <;> simp [condHit, zero]

theorem condHit_nonzero (v : Word) : condHit true v = !decide (v = 0#32) := by
  by_cases zero : v = 0#32 <;> simp [condHit, zero]

/-! ## Where the branch goes (44_branch.md R171 to R174) -/

theorem takeBranch_unless (misses : Prop) [Decidable misses] (annul : Bool) (target : Word)
    (s : State) :
    takeBranch (!decide misses) annul target s =
      if misses then { s with pc := s.pc + 4#32 }
      else if annul then { s with pc := target }
      else { s with pc := s.pc + 4#32, slot := .branchDelay target } := by
  by_cases missed : misses
  · simp [takeBranch, missed]
  · simp [takeBranch, missed]

theorem branch_of_slot_none {s : State} (slot : s.slot = .none) (nonzero annul : Bool) (a : RegIdx)
    (imm : Imm18) :
    branch nonzero annul a imm s =
      .next (takeBranch (condHit nonzero (s.reg a)) annul (plusImm s.pc imm 4) s) := by
  simp only [branch, slot, branchTarget_eq]

end Sys2Proof.Machine

namespace Sys2Proof.Proofs

open Sys2Proof.Machine

/-- Settles O22: the words of operation 7; with no slot pending both branches are `takeBranch` to the
signed target, BZ unless the register is nonzero and BNZ unless it is zero. -/
theorem branchByConditionAndAnnul : Obligations.BranchByConditionAndAnnul := by
  refine ⟨fun _ operation => decode_of_operation_seven operation,
    fun annul a imm s slot => ⟨?_, ?_⟩⟩
  · rw [← takeBranch_unless, ← condHit_zero]
    exact branch_of_slot_none slot false annul a imm
  · rw [← takeBranch_unless, ← condHit_nonzero]
    exact branch_of_slot_none slot true annul a imm

end Sys2Proof.Proofs

/-! Send (45_result_ops.md R189, R190): the call and the advance of the address, and how many calls an
instruction adds to the trace. -/

namespace Sys2Proof.Machine

open Sys2Proof.Safety

/-! ## The method-address register after a send (45_result_ops.md R189) -/

/-- An increment of 0 advances nothing. -/
theorem advanceMethod_of_increment_zero {m : Word} (zero : methodIncrement m = 0#6) :
    advanceMethod m = m := by
  refine BitVec.eq_of_getLsbD_eq fun i _ => ?_
  rw [getLsbD_advanceMethod, zero]
  split
  · rename_i low
    simp [methodAddress, low]
  · rfl

theorem send_eq (v : Word) (s : State) :
    send v s = { s with
      maddr := advanceMethod s.maddr
      trace := s.trace ++ [.call ((methodAddress s.maddr).setWidth 32) v] } := rfl

/-! ## The events of an instruction (45_result_ops.md R190) -/

theorem filter_isCall_of_quiet {pre : List Event} (quiet : ∀ m v, Event.call m v ∉ pre) :
    pre.filter isCall = [] := by
  refine List.filter_eq_nil_iff.mpr fun e mem => ?_
  cases e with
  | call m v => exact absurd mem (quiet m v)
  | read i v | diag pc w => simp [isCall]

@[simp] theorem takeBranch_trace (hit annul : Bool) (target : Word) (s : State) :
    (takeBranch hit annul target s).trace = s.trace := by
  cases hit <;> cases annul <;> rfl

/-- An instruction issues at most one event that is no call, and after it at most the one event of its
send. -/
theorem Effect.events {i : Instr} {s t : State} (h : Effect i s t) :
    ∃ pre sent, t.trace = s.trace ++ pre ++ sent ∧ pre.length ≤ 1 ∧ pre.filter isCall = [] ∧
      sent.length ≤ 1 := by
  cases h with
  | raised _ pre _ ahead _ _ short quiet =>
    obtain ⟨answers, draws, rfl⟩ := ahead
    exact ⟨pre, [], by simp, short, filter_isCall_of_quiet quiet, Nat.zero_le 1⟩
  | completed _ _ _ _ pre _ _ _ _ _ _ short quiet _ done =>
    refine ⟨pre, _, done.delivered.trace, short, filter_isCall_of_quiet quiet, ?_⟩
    split
    · exact Nat.le_refl 1
    · exact Nat.zero_le 1
  | logged pre _ _ short quiet _ done =>
    exact ⟨pre, [], by simp [done.trace], short, filter_isCall_of_quiet quiet, Nat.zero_le 1⟩
  | branched => exact ⟨[], [], by simp, Nat.zero_le 1, rfl, Nat.zero_le 1⟩

theorem Effect.calls_le {i : Instr} {s t : State} (h : Effect i s t) :
    (t.trace.filter isCall).length ≤ (s.trace.filter isCall).length + 1 := by
  obtain ⟨pre, sent, trace, -, quiet, once⟩ := h.events
  have atMost : (sent.filter isCall).length ≤ 1 := (List.length_filter_le isCall sent).trans once
  simpa [trace, quiet] using atMost

end Sys2Proof.Machine

namespace Sys2Proof.Proofs

open Sys2Proof.Machine

/-- Settles O23: a send leaves `advanceMethod` of `maddr`, known by its address and its upper bits; every
instruction's trace is the old one and at most one event of a send. -/
theorem sendCallsThenAdvances : Obligations.SendCallsThenAdvances :=
  ⟨fun v s => ⟨advanceMethod s.maddr, send_eq v s, advanceMethod_address s.maddr,
      advanceMethod_upper s.maddr, advanceMethod_of_increment_zero⟩,
    fun _ _ _ h => (effect_of_exec h).calls_le⟩

end Sys2Proof.Proofs

/-! REGISTER_OUT_OF_RANGE (60_exceptions.md R205): the step error an instruction ends with is one it
raised, and an instruction that is not READ leaves the register bank alone. -/

namespace Sys2Proof.Machine

open Sys2Proof.Safety

@[simp] theorem takeBranch_answers (hit annul : Bool) (target : Word) (s : State) :
    (takeBranch hit annul target s).answers = s.answers := by
  cases hit <;> cases annul <;> rfl

@[simp] theorem takeBranch_status (hit annul : Bool) (target : Word) (s : State) :
    (takeBranch hit annul target s).status = s.status := by
  cases hit <;> cases annul <;> rfl

/-! ## The error an instruction ends with (60_exceptions.md R209) -/

/-- The end of an instruction that completes raises PARAMETER_LEFTOVER alone (40_sequencer.md R108). -/
theorem stepError_eq_false_of_sequenced {isExit : Bool} {s t : State} {e : ErrorKind}
    (h : Sequenced isExit s t) (running : s.status = .running) (status : t.status = .error e) :
    stepError e = false := by
  have ended := h.status
  rw [running, status] at ended
  split at ended
  · split at ended
    · cases ended
    · cases ended
      rfl
  · cases ended
  · cases ended

/-- A step error that a running core ends an instruction with is one the instruction raised. -/
theorem Effect.why_of_stepError {i : Instr} {s t : State} {e : ErrorKind} (h : Effect i s t)
    (running : s.status = .running) (status : t.status = .error e) (kind : stepError e = true) :
    ∃ pre, Why i s pre e := by
  have notSequenced : ¬ Sequenced (exitBit i) s t := fun sequenced =>
    Bool.false_ne_true ((stepError_eq_false_of_sequenced sequenced running status).symm.trans kind)
  cases h with
  | raised _ pre _ _ _ why =>
    cases status
    exact ⟨pre, why⟩
  | completed _ _ _ _ _ _ _ _ _ _ _ _ _ _ done => exact absurd done.sequenced notSequenced
  | logged _ _ _ _ _ _ done => exact absurd done.sequenced notSequenced
  | branched =>
    rw [takeBranch_status, running] at status
    cases status

/-- An instruction that raises REGISTER_OUT_OF_RANGE is a READ of that index (60_exceptions.md R205). -/
theorem Why.read_of_registerOutOfRange {i : Instr} {s : State} {pre : List Event} {index : Word}
    (h : Why i s pre (.registerOutOfRange index)) :
    ∃ rop x d a imm, i = .read rop x d a imm ∧ index = plusImm (s.reg a) imm 1 ∧
      s.cfg.numGpuRegs ≤ index.toNat := by
  cases h with
  | range rop x d a imm isRead out => exact ⟨rop, x, d, a, imm, isRead, add_sext18 _ _, out⟩

/-! ## The register bank (20_memory.md R46) -/

/-- An instruction that is not READ takes no answer of the bank and logs no read. -/
theorem Effect.keepsBank {i : Instr} {s t : State} (h : Effect i s t) (notRead : isRead i = false) :
    t.answers = s.answers ∧ t.trace.filter isBankRead = s.trace.filter isBankRead := by
  cases h with
  | raised e pre u ahead noRead =>
    obtain ⟨answers, quiet⟩ := noRead notRead
    obtain ⟨_, _, rfl⟩ := ahead
    exact ⟨answers, by simp [quiet]⟩
  | completed rop _ _ _ _ _ _ _ _ _ _ _ _ noRead done =>
    obtain ⟨answers, quiet⟩ := noRead notRead
    refine ⟨answers, ?_⟩
    cases sent : sends rop <;> simp [done.delivered.trace, quiet, sent, isBankRead]
  | logged _ _ _ _ _ noRead done =>
    obtain ⟨answers, quiet⟩ := noRead notRead
    exact ⟨answers, by simp [done.trace, quiet]⟩
  | branched => simp

end Sys2Proof.Machine

namespace Sys2Proof.Proofs

open Sys2Proof.Machine

/-- Settles O35: the range check raises before the bank is read, a range error names its READ (which then
has raised in just that way), and no other instruction reaches the bank. -/
theorem rangeErrorOnlyFromRead : Obligations.RangeErrorOnlyFromRead := by
  refine ⟨fun rop x d a imm s out => exec_read_of_outOfRange out rop x d, ?_,
    fun i s t notRead next => (effect_of_exec next).keepsBank notRead⟩
  intro i s t index running next status
  obtain ⟨_, why⟩ := (effect_of_exec next).why_of_stepError running status rfl
  obtain ⟨rop, x, d, a, imm, rfl, rfl, out⟩ := why.read_of_registerOutOfRange
  rw [exec_read_of_outOfRange out] at next
  cases next
  exact ⟨rfl, rfl, rfl, out, rop, x, d, a, imm, rfl, rfl⟩

end Sys2Proof.Proofs

/-! The encoding, both ways (30_encoding.md R70 to R87): the fields of an assembled word, the words of each
operation and of each ALU code, and from them decoding after assembling and the rows of the opcode table. -/

namespace Sys2Proof

open Sys2Proof.Safety

/-! ## The fields of an assembled word -/

/-- A field read back from its own place. -/
theorem extractLsb'_place_same {n : Nat} (v : BitVec n) (lo : Nat) (fits : lo + n ≤ 32) :
    (place v lo).extractLsb' lo n = v := by
  apply BitVec.eq_of_getLsbD_eq
  intro i hi
  have inside : lo + i < 32 := by omega
  simp only [BitVec.getLsbD_extractLsb', getLsbD_place, hi, inside, Nat.le_add_right,
    Nat.add_sub_cancel_left, decide_true, Bool.true_and]

/-- A field placed beside another does not touch it. -/
theorem extractLsb'_place_beside {n : Nat} (v : BitVec n) (lo start len : Nat)
    (beside : start + len ≤ lo ∨ lo + n ≤ start) : (place v lo).extractLsb' start len = 0#len := by
  apply BitVec.eq_of_getLsbD_eq
  intro i hi
  simp only [BitVec.getLsbD_extractLsb', getLsbD_place, BitVec.getLsbD_zero]
  by_cases inside : lo ≤ start + i
  · simp [BitVec.getLsbD_of_ge v (start + i - lo) (by omega)]
  · simp [inside]

/-- A field of one bit, as a bit. -/
theorem getLsbD_of_extractLsb' {w : Word} {i : Nat} {b : Bool}
    (h : w.extractLsb' i 1 = BitVec.ofBool b) : w.getLsbD i = b := by
  rw [← ofBool_getLsbD] at h
  simpa using congrArg (BitVec.getLsbD · 0) h

theorem fields_encodeAlu (alu : Field5) (rop : ResultOp) (x : Bool) (d a b : RegIdx) :
    fieldOperation (encodeAlu alu rop x d a b) = 0#3 ∧
    fieldResultOp (encodeAlu alu rop x d a b) = rop.code ∧
    fieldIsExit (encodeAlu alu rop x d a b) = x ∧
    fieldDst (encodeAlu alu rop x d a b) = d ∧
    fieldSrcA (encodeAlu alu rop x d a b) = a ∧
    fieldSrcB (encodeAlu alu rop x d a b) = b ∧
    fieldAluOp (encodeAlu alu rop x d a b) = alu := by
  refine ⟨?_, ?_, getLsbD_of_extractLsb' ?_, ?_, ?_, ?_, ?_⟩ <;>
    simp [fieldOperation, fieldResultOp, fieldDst, fieldSrcA, fieldSrcB, fieldAluOp, encodeAlu,
      encodeLow, BitVec.extractLsb'_or, extractLsb'_place_same, extractLsb'_place_beside]

theorem fields_encodeImm (op : BitVec 3) (rop : ResultOp) (x : Bool) (d a : RegIdx) (imm : Imm18) :
    fieldOperation (encodeImm op rop x d a imm) = op ∧
    fieldResultOp (encodeImm op rop x d a imm) = rop.code ∧
    fieldIsExit (encodeImm op rop x d a imm) = x ∧
    fieldDst (encodeImm op rop x d a imm) = d ∧
    fieldSrcA (encodeImm op rop x d a imm) = a ∧
    fieldImm (encodeImm op rop x d a imm) = imm := by
  refine ⟨?_, ?_, getLsbD_of_extractLsb' ?_, ?_, ?_, ?_⟩ <;>
    simp [fieldOperation, fieldResultOp, fieldDst, fieldSrcA, fieldImm, encodeImm, encodeLow,
      BitVec.extractLsb'_or, extractLsb'_place_same, extractLsb'_place_beside]

theorem fields_encodeBitfield (op : BitVec 3) (rop : ResultOp) (x : Bool) (d a b : RegIdx)
    (sb sz db : Field5) :
    fieldOperation (encodeBitfield op rop x d a b sb sz db) = op ∧
    fieldResultOp (encodeBitfield op rop x d a b sb sz db) = rop.code ∧
    fieldIsExit (encodeBitfield op rop x d a b sb sz db) = x ∧
    fieldDst (encodeBitfield op rop x d a b sb sz db) = d ∧
    fieldSrcA (encodeBitfield op rop x d a b sb sz db) = a ∧
    fieldSrcB (encodeBitfield op rop x d a b sb sz db) = b ∧
    fieldSrcBit (encodeBitfield op rop x d a b sb sz db) = sb ∧
    fieldSize (encodeBitfield op rop x d a b sb sz db) = sz ∧
    fieldDstBit (encodeBitfield op rop x d a b sb sz db) = db := by
  refine ⟨?_, ?_, getLsbD_of_extractLsb' ?_, ?_, ?_, ?_, ?_, ?_, ?_⟩ <;>
    simp [fieldOperation, fieldResultOp, fieldDst, fieldSrcA, fieldSrcB, fieldSrcBit, fieldSize,
      fieldDstBit, encodeBitfield, encodeLow, BitVec.extractLsb'_or, extractLsb'_place_same,
      extractLsb'_place_beside]

theorem fields_encodeBranch (cond annul : Bool) (a : RegIdx) (imm : Imm18) :
    fieldOperation (encodeBranch cond annul a imm) = 7#3 ∧
    fieldBranchCond (encodeBranch cond annul a imm) = cond ∧
    fieldBranchAnnul (encodeBranch cond annul a imm) = annul ∧
    fieldSrcA (encodeBranch cond annul a imm) = a ∧
    fieldImm (encodeBranch cond annul a imm) = imm := by
  refine ⟨?_, getLsbD_of_extractLsb' ?_, getLsbD_of_extractLsb' ?_, ?_, ?_⟩ <;>
    simp [fieldOperation, fieldSrcA, fieldImm, encodeBranch, BitVec.extractLsb'_or,
      extractLsb'_place_same, extractLsb'_place_beside]

theorem fields_encodeReserved (x : Bool) :
    fieldOperation (encodeReserved x) = 6#3 ∧ fieldIsExit (encodeReserved x) = x := by
  cases x <;> decide

@[simp] theorem ResultOp.ofCode_code (rop : ResultOp) : ResultOp.ofCode rop.code = rop := by
  cases rop <;> rfl

/-! ## The words of each operation (30_encoding.md R73, R84) -/

theorem decode_of_operation_two {w : Word} (operation : fieldOperation w = 2#3) :
    decode w = fromFields Instr.extins w (fieldSrcB w) (fieldSrcBit w) (fieldSize w)
      (fieldDstBit w) := by
  simp only [decode, operation]
  rfl

theorem decode_of_operation_three {w : Word} (operation : fieldOperation w = 3#3) :
    decode w = fromFields Instr.extshli w (fieldSrcB w) (fieldSize w) (fieldDstBit w) := by
  simp only [decode, operation]
  rfl

theorem decode_of_operation_four {w : Word} (operation : fieldOperation w = 4#3) :
    decode w = fromFields Instr.extshlr w (fieldSrcB w) (fieldSrcBit w) (fieldSize w) := by
  simp only [decode, operation]
  rfl

theorem decode_of_operation_six {w : Word} (operation : fieldOperation w = 6#3) :
    decode w = .rsvd (fieldIsExit w) w := by
  simp only [decode, operation]
  rfl

/-! ## The ALU codes that name a function (30_encoding.md R75) -/

/-- An ALU code's words are known from `decodeAlu`. -/
theorem aluEncoding_of_decodeAlu {code : Nat}
    {ctor : ResultOp → Bool → RegIdx → RegIdx → RegIdx → Instr}
    (h : ∀ w, (fieldAluOp w).toNat = code → decodeAlu w = fromFields ctor w (fieldSrcB w)) :
    AluEncoding code ctor := fun w operation aluOp =>
  (decode_of_operation_zero operation).trans (h w aluOp)

theorem aluEncoding_adc : AluEncoding 1 .adc :=
  aluEncoding_of_decodeAlu fun w code => by simp only [decodeAlu, code]; rfl

theorem aluEncoding_sub : AluEncoding 2 .sub :=
  aluEncoding_of_decodeAlu fun w code => by simp only [decodeAlu, code]; rfl

theorem aluEncoding_sbb : AluEncoding 3 .sbb :=
  aluEncoding_of_decodeAlu fun w code => by simp only [decodeAlu, code]; rfl

theorem aluEncoding_xor : AluEncoding 8 .xor :=
  aluEncoding_of_decodeAlu fun w code => by simp only [decodeAlu, code]; rfl

theorem aluEncoding_or : AluEncoding 9 .or :=
  aluEncoding_of_decodeAlu fun w code => by simp only [decodeAlu, code]; rfl

theorem aluEncoding_and : AluEncoding 10 .and :=
  aluEncoding_of_decodeAlu fun w code => by simp only [decodeAlu, code]; rfl

theorem aluEncoding_andnot : AluEncoding 11 .andnot :=
  aluEncoding_of_decodeAlu fun w code => by simp only [decodeAlu, code]; rfl

theorem aluEncoding_nand : AluEncoding 12 .nand :=
  aluEncoding_of_decodeAlu fun w code => by simp only [decodeAlu, code]; rfl

/-! ## The ALU codes that name no function (41_alu.md R130) -/

/-- The ALU words whose code lies in `lo..hi` decode to `ctor` of their fields and of the word. -/
def CarriedAluCodes (lo hi : Nat) (ctor : ResultOp → Bool → RegIdx → Word → Instr) : Prop :=
  ∀ w : Word, lo ≤ (fieldAluOp w).toNat → (fieldAluOp w).toNat ≤ hi →
    decodeAlu w = ctor (ResultOp.ofCode (fieldResultOp w)) (fieldIsExit w) (fieldDst w) w

theorem carriedAluCodes_reserved47 : CarriedAluCodes 4 7 .aluReserved47 := by
  intro w low high
  unfold decodeAlu
  generalize (fieldAluOp w).toNat = code at low high ⊢
  interval_cases code <;> rfl

theorem carriedAluCodes_unrecognised13 : CarriedAluCodes 13 13 .aluUnrecognised13 := by
  intro w low high
  simp only [decodeAlu, Nat.le_antisymm high low]

theorem carriedAluCodes_unrecognised1415 : CarriedAluCodes 14 15 .aluUnrecognised1415 := by
  intro w low high
  unfold decodeAlu
  generalize (fieldAluOp w).toNat = code at low high ⊢
  interval_cases code <;> rfl

theorem carriedAluCodes_unrecognised1631 : CarriedAluCodes 16 31 .aluUnrecognised1631 := by
  intro w low high
  unfold decodeAlu
  generalize (fieldAluOp w).toNat = code at low high ⊢
  interval_cases code <;> rfl

/-- What `aluWordAgrees` says, field by field. -/
theorem aluWordAgrees_iff {lo hi : Nat} {rop : ResultOp} {x : Bool} {d : RegIdx} {w : Word} :
    aluWordAgrees lo hi rop x d w = true ↔
      fieldOperation w = 0#3 ∧ lo ≤ (fieldAluOp w).toNat ∧ (fieldAluOp w).toNat ≤ hi ∧
        fieldResultOp w = rop.code ∧ fieldIsExit w = x ∧ fieldDst w = d := by
  simp only [aluWordAgrees, Bool.and_eq_true, beq_iff_eq, decide_eq_true_eq, and_assoc]

section

variable {lo hi : Nat} {rop : ResultOp} {x : Bool} {d : RegIdx} {w : Word}

/-- A word that agrees with its instruction's fields decodes to the instruction. -/
theorem CarriedAluCodes.decode_eq {ctor : ResultOp → Bool → RegIdx → Word → Instr}
    (codes : CarriedAluCodes lo hi ctor) (h : aluWordAgrees lo hi rop x d w = true) :
    decode w = ctor rop x d w := by
  obtain ⟨operation, low, high, resultOp, rfl, rfl⟩ := aluWordAgrees_iff.mp h
  rw [decode_of_operation_zero operation, codes w low high, resultOp, ResultOp.ofCode_code]

/-- The assembled word agrees with the fields the carried word agrees with. -/
theorem aluWordAgrees_encodeAluCode (h : aluWordAgrees lo hi rop x d w = true) :
    aluWordAgrees lo hi rop x d (encodeAluCode rop x d w) = true := by
  obtain ⟨-, low, high, -⟩ := aluWordAgrees_iff.mp h
  obtain ⟨operation, resultOp, isExit, dst, -, -, aluOp⟩ :=
    fields_encodeAlu (fieldAluOp w) rop x d (fieldSrcA w) (fieldSrcB w)
  exact aluWordAgrees_iff.mpr ⟨operation, aluOp ▸ low, aluOp ▸ high, resultOp, isExit, dst⟩

/-- An ALU word whose code lies in `lo..hi` agrees with its own fields. -/
theorem aluWordAgrees_fields (operation : fieldOperation w = 0#3) (low : lo ≤ (fieldAluOp w).toNat)
    (high : (fieldAluOp w).toNat ≤ hi) :
    aluWordAgrees lo hi (ResultOp.ofCode (fieldResultOp w)) (fieldIsExit w) (fieldDst w) w = true :=
  aluWordAgrees_iff.mpr ⟨operation, low, high, (ResultOp.code_ofCode _).symm, rfl, rfl⟩

end

/-! ## Decoding an assembled word (30_encoding.md R84, R87) -/

/-- `fromFields`, by the names of the fields. -/
theorem fromFields_eq {α : Type} (ctor : ResultOp → Bool → RegIdx → RegIdx → α) (w : Word) :
    fromFields ctor w =
      ctor (ResultOp.ofCode (fieldResultOp w)) (fieldIsExit w) (fieldDst w) (fieldSrcA w) := rfl

section

variable (rop : ResultOp) (x : Bool) (d a b : RegIdx)

theorem decode_encodeAlu {alu : Field5} {ctor : ResultOp → Bool → RegIdx → RegIdx → RegIdx → Instr}
    (encoding : AluEncoding alu.toNat ctor) :
    decode (encodeAlu alu rop x d a b) = ctor rop x d a b := by
  obtain ⟨operation, resultOp, isExit, dst, srcA, srcB, aluOp⟩ := fields_encodeAlu alu rop x d a b
  rw [encoding _ operation (congrArg BitVec.toNat aluOp), fromFields_eq, resultOp, isExit, dst, srcA,
    ResultOp.ofCode_code]
  exact congrArg _ srcB

theorem decode_encodeImm_one (imm : Imm18) :
    decode (encodeImm 1#3 rop x d a imm) = .addi rop x d a imm := by
  have fields := fields_encodeImm 1#3 rop x d a imm
  simp only [decode_of_operation_one fields.1, fromFields_eq, fields, ResultOp.ofCode_code]

theorem decode_encodeImm_five (imm : Imm18) :
    decode (encodeImm 5#3 rop x d a imm) = .read rop x d a imm := by
  have fields := fields_encodeImm 5#3 rop x d a imm
  simp only [decode_of_operation_five fields.1, fromFields_eq, fields, ResultOp.ofCode_code]

theorem decode_encodeBitfield_two (sb sz db : Field5) :
    decode (encodeBitfield 2#3 rop x d a b sb sz db) = .extins rop x d a b sb sz db := by
  have fields := fields_encodeBitfield 2#3 rop x d a b sb sz db
  simp only [decode_of_operation_two fields.1, fromFields_eq, fields, ResultOp.ofCode_code]

theorem decode_encodeBitfield_three (sb sz db : Field5) :
    decode (encodeBitfield 3#3 rop x d a b sb sz db) = .extshli rop x d a b sz db := by
  have fields := fields_encodeBitfield 3#3 rop x d a b sb sz db
  simp only [decode_of_operation_three fields.1, fromFields_eq, fields, ResultOp.ofCode_code]

theorem decode_encodeBitfield_four (sb sz db : Field5) :
    decode (encodeBitfield 4#3 rop x d a b sb sz db) = .extshlr rop x d a b sb sz := by
  have fields := fields_encodeBitfield 4#3 rop x d a b sb sz db
  simp only [decode_of_operation_four fields.1, fromFields_eq, fields, ResultOp.ofCode_code]

theorem decode_encodeBranch (cond annul : Bool) (imm : Imm18) :
    decode (encodeBranch cond annul a imm) =
      (if cond then Instr.bnz else Instr.bz) annul a imm := by
  have fields := fields_encodeBranch cond annul a imm
  simp only [decode_of_operation_seven fields.1, fields]

end

/-- Decoding the assembled word of a well-formed instruction: each instruction by its format. -/
theorem decode_assemble {i : Instr} (h : i.wf = true) :
    decode (assemble i) = withWord (assemble i) i := by
  cases i with
  | add rop x d a b => exact decode_encodeAlu rop x d a b aluEncoding_add
  | adc rop x d a b => exact decode_encodeAlu rop x d a b aluEncoding_adc
  | sub rop x d a b => exact decode_encodeAlu rop x d a b aluEncoding_sub
  | sbb rop x d a b => exact decode_encodeAlu rop x d a b aluEncoding_sbb
  | xor rop x d a b => exact decode_encodeAlu rop x d a b aluEncoding_xor
  | or rop x d a b => exact decode_encodeAlu rop x d a b aluEncoding_or
  | and rop x d a b => exact decode_encodeAlu rop x d a b aluEncoding_and
  | andnot rop x d a b => exact decode_encodeAlu rop x d a b aluEncoding_andnot
  | nand rop x d a b => exact decode_encodeAlu rop x d a b aluEncoding_nand
  | aluReserved47 rop x d w =>
    exact carriedAluCodes_reserved47.decode_eq (aluWordAgrees_encodeAluCode h)
  | aluUnrecognised13 rop x d w =>
    exact carriedAluCodes_unrecognised13.decode_eq (aluWordAgrees_encodeAluCode h)
  | aluUnrecognised1415 rop x d w =>
    exact carriedAluCodes_unrecognised1415.decode_eq (aluWordAgrees_encodeAluCode h)
  | aluUnrecognised1631 rop x d w =>
    exact carriedAluCodes_unrecognised1631.decode_eq (aluWordAgrees_encodeAluCode h)
  | addi rop x d a imm => exact decode_encodeImm_one rop x d a imm
  | extins rop x d a b sb sz db => exact decode_encodeBitfield_two rop x d a b sb sz db
  | extshli rop x d a b sz db => exact decode_encodeBitfield_three rop x d a b 0#5 sz db
  | extshlr rop x d a b sb sz => exact decode_encodeBitfield_four rop x d a b sb sz 0#5
  | read rop x d a imm => exact decode_encodeImm_five rop x d a imm
  | rsvd x w =>
    obtain ⟨operation, isExit⟩ := fields_encodeReserved x
    exact (decode_of_operation_six operation).trans (congrArg (Instr.rsvd · _) isExit)
  | bz annul a imm => exact decode_encodeBranch a false annul imm
  | bnz annul a imm => exact decode_encodeBranch a true annul imm

/-- The word a well-formed instruction carries decodes to the instruction. -/
theorem decode_carriedWord {i : Instr} {w : Word} (h : i.wf = true) (carried : carriedWord i = some w) :
    decode w = i := by
  cases i <;> cases carried
  case aluReserved47 => exact carriedAluCodes_reserved47.decode_eq h
  case aluUnrecognised13 => exact carriedAluCodes_unrecognised13.decode_eq h
  case aluUnrecognised1415 => exact carriedAluCodes_unrecognised1415.decode_eq h
  case aluUnrecognised1631 => exact carriedAluCodes_unrecognised1631.decode_eq h
  case rsvd x =>
    simp only [Instr.wf, Bool.and_eq_true, beq_iff_eq] at h
    obtain ⟨operation, isExit⟩ := h
    rw [decode_of_operation_six operation, isExit]

/-- An instruction that carries no word has none to replace. -/
theorem withWord_of_not_logsWord {i : Instr} (h : logsWord i = false) (w : Word) :
    withWord w i = i := by
  cases i <;> cases h <;> rfl

theorem logsWord_withWord (w : Word) (i : Instr) : logsWord (withWord w i) = logsWord i := by
  cases i <;> rfl

theorem carriedWord_eq_none_iff {i : Instr} : carriedWord i = none ↔ logsWord i = false := by
  cases i <;> simp [carriedWord, logsWord]

theorem decode_encode {i : Instr} (h : i.wf = true) : decode (encode i) = i := by
  cases carried : carriedWord i with
  | some w =>
    rw [encode, carried]
    exact decode_carriedWord h carried
  | none =>
    rw [encode, carried]
    exact (decode_assemble h).trans (withWord_of_not_logsWord (carriedWord_eq_none_iff.mp carried) _)

/-! ## What a word decodes to -/

theorem decodeAlu_wf {w : Word} (operation : fieldOperation w = 0#3) :
    (decodeAlu w).wf = true := by
  unfold decodeAlu
  split
  case h_10 code => exact aluWordAgrees_fields operation code.ge code.le
  case h_11 =>
    have width := (fieldAluOp w).isLt
    simp only [imp_false] at *
    split
    · exact aluWordAgrees_fields operation (by omega) (by omega)
    · split
      · exact aluWordAgrees_fields operation (by omega) (by omega)
      · exact aluWordAgrees_fields operation (by omega) (by omega)
  all_goals rfl

theorem decode_wf (w : Word) : (decode w).wf = true := by
  unfold decode
  split
  case h_1 operation => exact decodeAlu_wf (BitVec.eq_of_toNat_eq operation)
  case h_7 operation =>
    simp only [Instr.wf, BitVec.eq_of_toNat_eq (y := 6#3) operation, BEq.rfl, Bool.and_self]
  case h_8 => split <;> rfl
  all_goals rfl

theorem carriedWord_decodeAlu (w : Word) :
    carriedWord (decodeAlu w) = if logsWord (decodeAlu w) then some w else none := by
  unfold decodeAlu
  split
  case h_11 =>
    split
    · rfl
    · split <;> rfl
  all_goals rfl

/-- The word a decoded instruction carries is the decoded word. -/
theorem carriedWord_decode (w : Word) :
    carriedWord (decode w) = if logsWord (decode w) then some w else none := by
  unfold decode
  split
  case h_1 => exact carriedWord_decodeAlu w
  case h_8 => split <;> rfl
  all_goals rfl

theorem encode_decode (w : Word) : encode (decode w) = w &&& readBits (decode w) := by
  unfold encode readBits
  rw [carriedWord_decode]
  split
  · exact (BitVec.and_allOnes).symm
  · exact Proofs.assembleOfDecodeKeepsFieldBits w

/-! ## The bits an operation reads (30_encoding.md R72, R80) -/

/-- Every operation reads `w[2:0]`. -/
theorem fieldOperation_and_fieldBits (w : Word) (i : Instr) :
    fieldOperation (w &&& fieldBits i) = fieldOperation w := by
  have operationBits : (fieldBits i).extractLsb' 0 3 = BitVec.allOnes 3 := by
    cases i <;> simp only [fieldBits] <;> decide
  rw [fieldOperation, BitVec.extractLsb'_and, operationBits, BitVec.and_allOnes, fieldOperation]

/-- Which bits are read is the operation's. -/
theorem fieldBits_decode_congr {w w' : Word} (same : fieldOperation w' = fieldOperation w) :
    fieldBits (decode w') = fieldBits (decode w) := by
  unfold decode
  rw [same]
  split
  case h_1 => rw [fieldBits_decodeAlu, fieldBits_decodeAlu]
  case h_8 => split <;> split <;> rfl
  all_goals rfl

/-- Words that agree on the bits the operation reads assemble alike, so they decode alike up to the word
they carry. -/
theorem decode_congr_of_fieldBits {w w' : Word} (quiet : logsWord (decode w) = false)
    (agree : w &&& fieldBits (decode w) = w' &&& fieldBits (decode w)) : decode w' = decode w := by
  have operation : fieldOperation w' = fieldOperation w := by
    rw [← fieldOperation_and_fieldBits w' (decode w), ← agree, fieldOperation_and_fieldBits]
  have assembled : assemble (decode w') = assemble (decode w) := by
    rw [Proofs.assembleOfDecodeKeepsFieldBits, Proofs.assembleOfDecodeKeepsFieldBits,
      fieldBits_decode_congr operation, agree]
  have upToWord : withWord (assemble (decode w)) (decode w') = decode w :=
    calc withWord (assemble (decode w)) (decode w')
      _ = decode (assemble (decode w')) := by rw [decode_assemble (decode_wf w'), assembled]
      _ = decode (assemble (decode w)) := congrArg decode assembled
      _ = withWord (assemble (decode w)) (decode w) := decode_assemble (decode_wf w)
      _ = decode w := withWord_of_not_logsWord quiet _
  have quiet' : logsWord (decode w') = false := by
    rw [← logsWord_withWord (assemble (decode w)), upToWord, quiet]
  rwa [withWord_of_not_logsWord quiet'] at upToWord

/-! ## The rows of the opcode table -/

theorem rowOf_mem_tableRows (i : Instr) : rowOf i ∈ tableRows := by
  cases i <;> simp [tableRows, rowOf]

/-- A row fixes bits that its instructions keep. -/
theorem readBits_and_rowMask (i : Instr) : readBits i &&& (rowOf i).mask = (rowOf i).mask := by
  unfold readBits
  split
  · exact BitVec.allOnes_and
  · cases i <;> simp only [fieldBits, rowOf] <;> decide

/-- Two rows of the table differ on a bit that both fix. -/
theorem tableRows_disjoint : ∀ r ∈ tableRows, ∀ r' ∈ tableRows,
    r.pattern &&& r'.mask = r'.pattern &&& r.mask → r = r' := by
  decide

theorem Row.covers_iff {r : Row} {w : Word} : r.covers w = true ↔ w &&& r.mask = r.pattern :=
  beq_iff_eq

theorem eq_of_covers {r r' : Row} (mem : r ∈ tableRows) (mem' : r' ∈ tableRows) {w : Word}
    (h : r.covers w = true) (h' : r'.covers w = true) : r = r' := by
  refine tableRows_disjoint r mem r' mem' ?_
  rw [← Row.covers_iff.mp h, ← Row.covers_iff.mp h', BitVec.and_assoc, BitVec.and_assoc,
    BitVec.and_comm r.mask]

open Laws in
theorem encodesInRow (i : Instr) : EncodesInRow.Statement i := by
  cases i with
  | add rop x d a b => exact EncodesInRow.add rop x d a b
  | adc rop x d a b => exact EncodesInRow.adc rop x d a b
  | sub rop x d a b => exact EncodesInRow.sub rop x d a b
  | sbb rop x d a b => exact EncodesInRow.sbb rop x d a b
  | xor rop x d a b => exact EncodesInRow.xor rop x d a b
  | or rop x d a b => exact EncodesInRow.or rop x d a b
  | and rop x d a b => exact EncodesInRow.and rop x d a b
  | andnot rop x d a b => exact EncodesInRow.andnot rop x d a b
  | nand rop x d a b => exact EncodesInRow.nand rop x d a b
  | aluReserved47 rop x d w => exact EncodesInRow.aluReserved47 rop x d w
  | aluUnrecognised13 rop x d w => exact EncodesInRow.aluUnrecognised13 rop x d w
  | aluUnrecognised1415 rop x d w => exact EncodesInRow.aluUnrecognised1415 rop x d w
  | aluUnrecognised1631 rop x d w => exact EncodesInRow.aluUnrecognised1631 rop x d w
  | addi rop x d a imm => exact EncodesInRow.addi rop x d a imm
  | extins rop x d a b sb sz db => exact EncodesInRow.extins rop x d a b sb sz db
  | extshli rop x d a b sz db => exact EncodesInRow.extshli rop x d a b sz db
  | extshlr rop x d a b sb sz => exact EncodesInRow.extshlr rop x d a b sb sz
  | read rop x d a imm => exact EncodesInRow.read rop x d a imm
  | rsvd x w => exact EncodesInRow.rsvd x w
  | bz annul a imm => exact EncodesInRow.bz annul a imm
  | bnz annul a imm => exact EncodesInRow.bnz annul a imm

/-- A word lies in the row of the instruction it decodes to. -/
theorem rowOf_decode_covers (w : Word) : (rowOf (decode w)).covers w = true := by
  have covers := Row.covers_iff.mp (encodesInRow (decode w) (decode_wf w))
  rw [encode_decode, BitVec.and_assoc, readBits_and_rowMask] at covers
  exact Row.covers_iff.mpr covers

end Sys2Proof

namespace Sys2Proof.Proofs

open Sys2Proof.Safety

/-- Settles O1: a carried word decodes by its own fields, an assembled one by its format's. -/
theorem decodeOfEncodeIsIdentity : Obligations.DecodeOfEncodeIsIdentity :=
  fun _ => decode_encode

/-- Settles O2: the rows that carry the word get it with the fields and the code range `wf` asks for. -/
theorem everyWordDecodesWellFormed : Obligations.EveryWordDecodesWellFormed :=
  decode_wf

/-- Settles O3: a carried word is the decoded one; the other rows are assembled from the word's fields. -/
theorem encodeOfDecodeKeepsReadBits : Obligations.EncodeOfDecodeKeepsReadBits :=
  encode_decode

/-- Settles O4: the two words assemble to the same word, which decodes to both instructions. -/
theorem unreadBitsDoNotMatter : Obligations.UnreadBitsDoNotMatter := by
  intro w w' quiet agree
  have bits : readBits (decode w) = fieldBits (decode w) := by simp [readBits, quiet]
  rw [bits] at agree
  exact decode_congr_of_fieldBits quiet agree

/-- Settles O5: a word lies in its instruction's row, and no two rows share a word. -/
theorem eachWordBelongsToItsOneRow : Obligations.EachWordBelongsToItsOneRow := by
  intro w r mem
  constructor
  · exact fun covers =>
      eq_of_covers mem (rowOf_mem_tableRows (decode w)) covers (rowOf_decode_covers w)
  · rintro rfl
    exact rowOf_decode_covers w

/-- Settles O57: each instruction by the fields of its format. -/
theorem decodeOfAssembleUpToCarriedWord : Obligations.DecodeOfAssembleUpToCarriedWord :=
  fun _ => decode_assemble

/-- Settles O6: the decoder evaluated on each word. -/
theorem handDecodedWords : Obligations.HandDecodedWords := by
  unfold Obligations.HandDecodedWords
  decide

end Sys2Proof.Proofs

/-! The remaining ALU functions (41_alu.md R122 to R130): each reduced to `produce` of its value and carry, or
to a diagnostic. -/

namespace Sys2Proof.Machine

open Sys2Proof.Safety

/-! ## Value and carry of ADC, SUB and SBB -/

/-- ADC is the three-operand sum modulo 2^32 and its unsigned overflow (R122). -/
theorem aluAdc_eq (a b : Word) (carry : Bool) :
    aluAdc a b carry = (a + b + if carry then 1#32 else 0#32,
      decide (2 ^ 32 ≤ a.toNat + b.toNat + if carry then 1 else 0)) := by
  rw [aluAdc, ofNat_exactSum]
  cases carry <;> rfl

/-- The borrow out of a difference, in both settings of `SUB_CARRY_MODE` (R123, R124, D7). -/
theorem diffCarry_exactDiff (mode : SubCarryMode) (a b : Word) (k : Bool) :
    diffCarry mode (exactDiff a b k) = match mode with
      | .borrow => decide (a.toNat < b.toNat + k.toNat)
      | .notBorrow => decide (b.toNat + k.toNat ≤ a.toNat) := by
  cases mode with
  | borrow => exact decide_eq_decide.mpr (by unfold exactDiff; omega)
  | notBorrow => exact decide_eq_decide.mpr (by unfold exactDiff; omega)

/-- SUB is the difference modulo 2^32 and its borrow, or the complement of that (R123). -/
theorem aluSub_eq (mode : SubCarryMode) (a b : Word) :
    aluSub mode a b = (a - b, match mode with
      | .borrow => decide (a.toNat < b.toNat)
      | .notBorrow => decide (b.toNat ≤ a.toNat)) := by
  rw [aluSub, ofInt_exactDiff, diffCarry_exactDiff]
  cases mode <;> simp

/-- SBB is the difference less the borrow taken in, and the borrow out (R124): `carry` is the borrow in
mode BORROW and its complement in mode NOT_BORROW. -/
theorem aluSbb_eq (mode : SubCarryMode) (a b : Word) (carry : Bool) :
    aluSbb mode a b carry =
      (a - b - if carry = decide (mode = .borrow) then 1#32 else 0#32, match mode with
        | .borrow => decide (a.toNat < b.toNat + if carry then 1 else 0)
        | .notBorrow => decide ((b.toNat + if carry then 0 else 1) ≤ a.toNat)) := by
  rw [aluSbb, ofInt_exactDiff, diffCarry_exactDiff]
  cases mode <;> cases carry <;> rfl

/-- An arithmetic function is known from its words, and from the value and carry it produces. -/
theorem aluRule_of_exec_eq {code : Nat} {ctor : ResultOp → Bool → RegIdx → RegIdx → RegIdx → Instr}
    {value : State → Word → Word → Word} {flag : State → Word → Word → Bool}
    (encoding : AluEncoding code ctor)
    (meaning : ∀ rop x d a b s, exec (ctor rop x d a b) s =
      aluFlagged (value s (s.reg a) (s.reg b), flag s (s.reg a) (s.reg b)) rop x d s) :
    AluRule code ctor value flag :=
  ⟨encoding, fun rop x d a b s => produces_of_exec_eq (meaning rop x d a b s)⟩

/-! ## The logic functions -/

/-- A logic function is known from its words, its value bit by bit, and that it produces the value with
carry as it was. -/
theorem logicRule_of_exec_eq {code : Nat} {ctor : ResultOp → Bool → RegIdx → RegIdx → RegIdx → Instr}
    {bit : Bool → Bool → Bool} (value : Word → Word → Word) (encoding : AluEncoding code ctor)
    (bits : ∀ a b n, n < 32 → (value a b).getLsbD n = bit (a.getLsbD n) (b.getLsbD n))
    (meaning : ∀ rop x d a b s,
      exec (ctor rop x d a b) s = aluLogic (value (s.reg a) (s.reg b)) rop x d s) :
    LogicRule code ctor bit :=
  ⟨encoding, fun rop x d a b s =>
    ⟨value (s.reg a) (s.reg b), bits _ _, produces_of_exec_eq (meaning rop x d a b s)⟩⟩

/-! ## The codes that name no function (41_alu.md R130) -/

/-- The instructions of R130 for given fields and word. -/
def unknownAluInstrs (rop : ResultOp) (x : Bool) (d : RegIdx) (w : Word) : List Instr :=
  [.aluReserved47 rop x d w, .aluUnrecognised13 rop x d w, .aluUnrecognised1415 rop x d w,
    .aluUnrecognised1631 rop x d w]

theorem exec_of_mem_unknownAluInstrs {i : Instr} {rop : ResultOp} {x : Bool} {d : RegIdx} {w : Word}
    (mem : i ∈ unknownAluInstrs rop x d w) (s : State) : exec i s = aluUnknown rop x d w s := by
  simp only [unknownAluInstrs, List.mem_cons, List.not_mem_nil, or_false] at mem
  obtain rfl | rfl | rfl | rfl := mem <;> rfl

/-- In mode RESULT_ZERO the result operation applies to 0, after the event (D28). -/
theorem aluUnknown_of_resultZero {s : State} (mode : s.cfg.unknownAlu = .resultZero) (rop : ResultOp)
    (x : Bool) (d : RegIdx) (w : Word) :
    aluUnknown rop x d w s = produce rop x d 0#32 none s (s.emit (.diag s.pc w)) := by
  simp only [aluUnknown, mode]

theorem aluUnknown_of_nop {s : State} (mode : s.cfg.unknownAlu = .nop) (rop : ResultOp)
    (x : Bool) (d : RegIdx) (w : Word) :
    aluUnknown rop x d w s =
      conclude x s (s.emit (.diag s.pc w)) (.ok (s.emit (.diag s.pc w))) := by
  simp only [aluUnknown, mode]

end Sys2Proof.Machine

namespace Sys2Proof.Proofs

open Sys2Proof.Machine Sys2Proof.Safety

/-- Settles O8: ADC produces the pair of `aluAdc`. -/
theorem adcAddsTheCarry : Obligations.AdcAddsTheCarry :=
  aluRule_of_exec_eq aluEncoding_adc fun rop x d a b s =>
    congrArg (aluFlagged · rop x d s) (aluAdc_eq (s.reg a) (s.reg b) s.carry)

/-- Settles O9: SUB produces the pair of `aluSub`. -/
theorem subGivesDifferenceAndBorrow : Obligations.SubGivesDifferenceAndBorrow :=
  aluRule_of_exec_eq aluEncoding_sub fun rop x d a b s =>
    congrArg (aluFlagged · rop x d s) (aluSub_eq s.cfg.subCarry (s.reg a) (s.reg b))

/-- Settles O10: SBB produces the pair of `aluSbb`. -/
theorem sbbSubtractsTheBorrow : Obligations.SbbSubtractsTheBorrow :=
  aluRule_of_exec_eq aluEncoding_sbb fun rop x d a b s =>
    congrArg (aluFlagged · rop x d s) (aluSbb_eq s.cfg.subCarry (s.reg a) (s.reg b) s.carry)

/-- Settles O11: each logic function by its word operation, known bit by bit. -/
theorem logicFunctionsAreBitwise : Obligations.LogicFunctionsAreBitwise := by
  refine ⟨logicRule_of_exec_eq (· ^^^ ·) aluEncoding_xor ?_ fun _ _ _ _ _ _ => rfl,
    logicRule_of_exec_eq (· ||| ·) aluEncoding_or ?_ fun _ _ _ _ _ _ => rfl,
    logicRule_of_exec_eq (· &&& ·) aluEncoding_and ?_ fun _ _ _ _ _ _ => rfl,
    logicRule_of_exec_eq (fun a b => a &&& ~~~ b) aluEncoding_andnot ?_ fun _ _ _ _ _ _ => rfl,
    logicRule_of_exec_eq (fun a b => ~~~ (a &&& b)) aluEncoding_nand ?_ fun _ _ _ _ _ _ => rfl⟩
  · exact fun a b n _ => BitVec.getLsbD_xor
  · exact fun a b n _ => BitVec.getLsbD_or
  · exact fun a b n _ => BitVec.getLsbD_and
  · intro a b n hn
    simp only [BitVec.getLsbD_and, BitVec.getLsbD_not, hn, decide_true, Bool.true_and]
  · intro a b n hn
    simp only [BitVec.getLsbD_and, BitVec.getLsbD_not, hn, decide_true, Bool.true_and]

/-- Settles O12: in mode NOP the diagnostic is all, then the instruction concludes. -/
theorem unknownAluCodeOnlyLogs : Obligations.UnknownAluCodeOnlyLogs := by
  intro rop x d w s mode i mem
  rw [exec_of_mem_unknownAluInstrs mem, aluUnknown_of_nop mode]
  exact conclude_logs rfl

/-- Settles O13: in mode RESULT_ZERO the instruction is `produce` on 0, ahead by its event. -/
theorem unknownAluCodeDeliversZero : Obligations.UnknownAluCodeDeliversZero := by
  intro rop x d w s mode i mem
  have ahead := (Ahead.refl s).emit (.diag s.pc w)
  rw [exec_of_mem_unknownAluInstrs mem, aluUnknown_of_resultZero mode]
  refine ⟨fun can => ?_, produce_underflow ahead⟩
  obtain ⟨t, next, completes, answers, draws⟩ := produce_completes ahead can
  exact ⟨t, next, completes, answers, draws⟩

end Sys2Proof.Proofs

/-! The bit-field operations (42_immediate_bitfield.md R142 to R145) and RESERVED (40_sequencer.md R109). -/

namespace Sys2Proof.Machine

open Sys2Proof.Safety

/-! ## The value of a register shift, by its amount (R145) -/

theorem shiftValue_of_lt {amount : Word} (small : amount.toNat < 32) (value : Nat → Word) (s : State) :
    shiftValue amount value s = (value amount.toNat, s) := by
  simp only [shiftValue, small, if_true]

theorem shiftValue_of_draw {amount : Word} (large : 32 ≤ amount.toNat) {s : State}
    (mode : s.cfg.largeShift = .draw) (value : Nat → Word) :
    shiftValue amount value s = (Config.freeWord s.draws, { s with draws := s.draws + 1 }) := by
  simp only [shiftValue, Nat.not_lt.mpr large, if_false, mode, shiftDraw]

theorem shiftValue_of_mod32 {amount : Word} (large : 32 ≤ amount.toNat) {s : State}
    (mode : s.cfg.largeShift = .mod32) (value : Nat → Word) :
    shiftValue amount value s = (value (amount.toNat % 32), s) := by
  simp only [shiftValue, Nat.not_lt.mpr large, if_false, mode]

/-! ## The instructions, by the value of their shift -/

section

variable (rop : ResultOp) (x : Bool) (d a b : RegIdx) (s : State)

theorem exec_extshli {v : Word} {t : State} (size dstBit : Field5)
    (shift : shiftValue (s.reg a) (fun n => extractShift (s.reg b) n size dstBit.toNat) s = (v, t)) :
    exec (.extshli rop x d a b size dstBit) s = produce rop x d v none s t := by
  simp only [exec, execExtshli, shift]

theorem exec_extshlr {v : Word} {t : State} (srcBit size : Field5)
    (shift : shiftValue (s.reg a) (fun n => extractShift (s.reg b) srcBit.toNat size n) s = (v, t)) :
    exec (.extshlr rop x d a b srcBit size) s = produce rop x d v none s t := by
  simp only [exec, execExtshlr, shift]

end

end Sys2Proof.Machine

namespace Sys2Proof.Proofs

open Sys2Proof.Machine Sys2Proof.Safety

/-- Settles O15: the words of operation 2, and `insertField` bit by bit. -/
theorem extractInsertPlacesField : Obligations.ExtractInsertPlacesField :=
  ⟨fun _ operation => decode_of_operation_two operation, fun _ _ _ a b srcBit size dstBit s =>
    ⟨insertField (s.reg a) (s.reg b) srcBit size dstBit, getLsbD_insertField _ _ srcBit size dstBit,
      produces_of_exec_eq (c := none) rfl⟩⟩

/-- Settles O16: the words of operation 3, and `extractShift` bit by bit. -/
theorem extractShlImmShiftsByRegister : Obligations.ExtractShlImmShiftsByRegister :=
  ⟨fun _ operation => decode_of_operation_three operation, fun rop x d a b size dstBit s small =>
    ⟨extractShift (s.reg b) (s.reg a).toNat size dstBit.toNat, getLsbD_extractShift _ _ size _,
      produces_of_exec_eq (exec_extshli rop x d a b s size dstBit (shiftValue_of_lt small _ s))⟩⟩

/-- Settles O17: the words of operation 4, and `extractShift` bit by bit. -/
theorem extractShlRegShiftsByRegister : Obligations.ExtractShlRegShiftsByRegister :=
  ⟨fun _ operation => decode_of_operation_four operation, fun rop x d a b srcBit size s small =>
    ⟨extractShift (s.reg b) srcBit.toNat size (s.reg a).toNat, getLsbD_extractShift _ _ size _,
      produces_of_exec_eq (exec_extshlr rop x d a b s srcBit size (shiftValue_of_lt small _ s))⟩⟩

/-- Settles O18: both instructions are `produce` on the free value, in the state that has drawn it. -/
theorem largeShiftDrawsFreeValue : Obligations.LargeShiftDrawsFreeValue := by
  intro rop x d a b f g s large mode i mem
  have drawn : exec i s =
      produce rop x d (Config.freeWord s.draws) none s { s with draws := s.draws + 1 } := by
    simp only [List.mem_cons, List.not_mem_nil, or_false] at mem
    obtain rfl | rfl := mem
    · exact exec_extshli rop x d a b s f g (shiftValue_of_draw large mode _)
    · exact exec_extshlr rop x d a b s f g (shiftValue_of_draw large mode _)
  have ahead : Ahead [] s { s with draws := s.draws + 1 } := ⟨s.answers, s.draws + 1, by simp⟩
  rw [drawn]
  exact ⟨produce_completes ahead, produce_underflow ahead⟩

/-- Settles O19: both instructions are `produce` on the value of the amount modulo 32. -/
theorem largeShiftModulo32 : Obligations.LargeShiftModulo32 := by
  intro rop x d a b f g s large mode
  refine ⟨⟨extractShift (s.reg b) ((s.reg a).toNat % 32) f g.toNat, getLsbD_extractShift _ _ f _, ?_⟩,
    ⟨extractShift (s.reg b) f.toNat g ((s.reg a).toNat % 32), getLsbD_extractShift _ _ g _, ?_⟩⟩
  · exact produces_of_exec_eq (exec_extshli rop x d a b s f g (shiftValue_of_mod32 large mode _))
  · exact produces_of_exec_eq (exec_extshlr rop x d a b s f g (shiftValue_of_mod32 large mode _))

/-- Settles O21: the words of operation 6; the diagnostic is all, then the instruction concludes. -/
theorem reservedOnlyLogs : Obligations.ReservedOnlyLogs :=
  ⟨fun _ operation => decode_of_operation_six operation, fun _ _ _ => conclude_logs rfl⟩

end Sys2Proof.Proofs

/-! What follows an instruction (40_sequencer.md R100 to R108), by the slot it was fetched in. -/

namespace Sys2Proof.Safety

open Sys2Proof.Machine

section

variable {isExit : Bool} {s t : State}

/-! ## Sequencing, slot by slot -/

theorem Sequenced.of_none (h : Sequenced isExit s t) (slot : s.slot = .none) :
    t.pc = s.pc + 4#32 ∧ t.slot = (if isExit then .exitDelay else .none) ∧ t.status = s.status := by
  simpa only [slot] using And.intro h.pc (And.intro h.slot h.status)

theorem Sequenced.of_branchDelay (h : Sequenced isExit s t) {target : Word}
    (slot : s.slot = .branchDelay target) :
    t.pc = target ∧ t.slot = .none ∧ t.status = s.status := by
  simpa only [slot] using And.intro h.pc (And.intro h.slot h.status)

theorem Sequenced.of_exitDelay (h : Sequenced isExit s t) (slot : s.slot = .exitDelay) :
    t.pc = s.pc + 4#32 ∧ t.slot = .exitDelay ∧
      ((t.status = .done ∧ t.cursor = s.params.length) ∨
        t.status = .error (.parameterLeftover t.cursor)) := by
  have status : t.status =
      if t.cursor = s.params.length then .done else .error (.parameterLeftover t.cursor) := by
    simpa only [slot] using h.status
  refine ⟨by simpa only [slot] using h.pc, by simpa only [slot] using h.slot, ?_⟩
  split at status
  · exact .inl ⟨status, ‹_›⟩
  · exact .inr status

/-- The end of an instruction that completes leaves the status, ends the run in an exit's slot, or finds
parameters left there. -/
theorem Sequenced.status_cases (h : Sequenced isExit s t) :
    t.status = s.status ∨ (t.status = .done ∧ t.cursor = s.params.length ∧ t.slot = .exitDelay) ∨
      t.status = .error (.parameterLeftover t.cursor) := by
  cases slot : s.slot with
  | none => exact .inl (h.of_none slot).2.2
  | branchDelay target => exact .inl (h.of_branchDelay slot).2.2
  | exitDelay =>
    obtain ⟨-, exitSlot, ⟨done, consumed⟩ | leftover⟩ := h.of_exitDelay slot
    · exact .inr (.inl ⟨done, consumed, exitSlot⟩)
    · exact .inr (.inr leftover)

theorem Sequenced.not_raised (h : Sequenced isExit s t) (running : s.status = .running) :
    ¬ Raised t := fun ⟨_, status, kind⟩ =>
  Bool.false_ne_true ((stepError_eq_false_of_sequenced h running status).symm.trans kind)

end

end Sys2Proof.Safety

namespace Sys2Proof.Machine

open Sys2Proof.Safety

/-! ## An instruction that raises nothing, and one that raises -/

section

variable {i : Instr} {s t : State}

/-- An instruction raises, is sequenced by its slot, or is a branch outside a slot. -/
theorem Effect.ending (h : Effect i s t) :
    (∃ e pre u, Why i s pre e ∧ t = raise e s u) ∨
      (isBranch i = false ∧ Sequenced (exitBit i) s t) ∨
      (isBranch i = true ∧ s.slot = .none ∧
        ∃ hit annul imm, t = takeBranch hit annul (branchTarget s.pc imm) s) := by
  cases h with
  | raised e pre u _ _ why => exact .inl ⟨e, pre, u, why, rfl⟩
  | completed _ _ _ _ _ _ notBranch _ _ _ _ _ _ _ done =>
    exact .inr (.inl ⟨notBranch, done.sequenced⟩)
  | logged _ _ notBranch _ _ _ done => exact .inr (.inl ⟨notBranch, done.sequenced⟩)
  | branched hit annul imm isB slot => exact .inr (.inr ⟨isB, slot, hit, annul, imm, rfl⟩)

theorem Effect.quiet_ending (h : Effect i s t) (quiet : ¬ Raised t) :
    (isBranch i = false ∧ Sequenced (exitBit i) s t) ∨
      (isBranch i = true ∧ s.slot = .none ∧
        ∃ hit annul imm, t = takeBranch hit annul (branchTarget s.pc imm) s) := by
  obtain ⟨e, _, _, why, rfl⟩ | ended := h.ending
  · exact absurd ⟨e, rfl, why.kind⟩ quiet
  · exact ended

/-- A BRANCH has no exit bit (30_encoding.md R71). -/
theorem isBranch_of_exitBit (h : exitBit i = true) : isBranch i = false := by
  cases i with
  | bz | bnz => cases h
  | _ => rfl

/-- An instruction in a delay slot that raises nothing is no BRANCH. -/
theorem Effect.notBranch_of_pending (h : Effect i s t) (pending : s.slot ≠ .none)
    (quiet : ¬ Raised t) : isBranch i = false := by
  obtain ⟨notBranch, -⟩ | ⟨-, slot, -⟩ := h.quiet_ending quiet
  · exact notBranch
  · exact absurd slot pending

end

/-- A branch without a slot pending leaves none, or its target pending at the next word. -/
theorem takeBranch_slot {s : State} (slot : s.slot = .none) (hit annul : Bool) (target : Word) :
    (takeBranch hit annul target s).slot = .none ∨
      ((takeBranch hit annul target s).pc = s.pc + 4#32 ∧
        (takeBranch hit annul target s).slot = .branchDelay target) := by
  cases hit <;> cases annul <;> simp [takeBranch, slot]

/-- The condition holds where the register is zero just if ZERO is asked for (44_branch.md R170). -/
theorem condHit_eq_true_iff {nonzero : Bool} {v : Word} :
    condHit nonzero v = true ↔ (v = 0#32 ↔ nonzero = false) := by
  cases nonzero <;> simp [condHit]

/-- A taken branch without annul sets its target pending (44_branch.md R173). -/
theorem exec_branch_taken {nonzero : Bool} {a : RegIdx} {s : State} (slot : s.slot = .none)
    (hit : s.reg a = 0#32 ↔ nonzero = false) (imm : Imm18) :
    exec (if nonzero then .bnz false a imm else .bz false a imm) s =
      .next { s with pc := s.pc + 4#32, slot := .branchDelay (plusImm s.pc imm 4) } := by
  have isBranch : exec (if nonzero then .bnz false a imm else .bz false a imm) s =
      branch nonzero false a imm s := by cases nonzero <;> rfl
  rw [isBranch, branch_of_slot_none slot, condHit_eq_true_iff.mpr hit]
  rfl

end Sys2Proof.Machine

namespace Sys2Proof.Proofs

open Sys2Proof.Machine Sys2Proof.Safety

/-- Settles O28: an instruction that raises nothing is sequenced by its slot, or is a branch outside
one. -/
theorem slotDecidesWhatFollows : Obligations.SlotDecidesWhatFollows := by
  intro i s t next running quiet
  obtain ⟨notBranch, sequenced⟩ | ⟨isB, slot, hit, annul, imm, rfl⟩ :=
    (effect_of_exec next).quiet_ending quiet
  · cases slot : s.slot with
    | none =>
      obtain ⟨pc, after, status⟩ := sequenced.of_none slot
      simp only [notBranch, Bool.false_eq_true, if_false]
      exact ⟨status.trans running, pc, after⟩
    | branchDelay target =>
      obtain ⟨pc, after, status⟩ := sequenced.of_branchDelay slot
      exact ⟨pc, after, status.trans running⟩
    | exitDelay =>
      obtain ⟨pc, after, ⟨done, -⟩ | leftover⟩ := sequenced.of_exitDelay slot
      · exact ⟨pc, after, by simp [done]⟩
      · exact ⟨pc, after, by simp [leftover]⟩
  · simp only [slot, isB, if_true]
    refine ⟨(takeBranch_status _ _ _ _).trans running, ?_⟩
    exact (takeBranch_slot slot hit annul _).imp_right fun ⟨pc, after⟩ => ⟨pc, _, after⟩

/-- Settles O30: the exit instruction leaves an exit's slot, which the next instruction is sequenced
in. -/
theorem exitRunsExactlyOneMore : Obligations.ExitRunsExactlyOneMore := by
  intro i j s t u running slot exits next quiet next' quiet'
  obtain ⟨-, sequenced⟩ | ⟨isB, -⟩ := (effect_of_exec next).quiet_ending quiet
  · obtain ⟨pc, after, status⟩ := sequenced.of_none slot
    rw [exits] at after
    have last := (effect_of_exec next').sequenced (by simp [after]) quiet'
    obtain ⟨-, -, ended⟩ := last.of_exitDelay after
    exact ⟨status.trans running, pc, ended.imp_left And.left⟩
  · cases isB.symm.trans (isBranch_of_exitBit exits)

/-- Settles O32: the branch leaves its target pending, and the next instruction is sequenced in that
slot. -/
theorem takenBranchRunsSlotThenTarget : Obligations.TakenBranchRunsSlotThenTarget := by
  intro nonzero a imm s j t u running slot hit next next' quiet
  rw [exec_branch_taken slot hit] at next
  cases next
  have effect := effect_of_exec next'
  obtain ⟨pc, after, status⟩ := (effect.sequenced (by simp) quiet).of_branchDelay rfl
  exact ⟨rfl, effect.notBranch_of_pending (by simp) quiet, pc, after, status.trans running⟩

/-- Settles O24: every word decodes to a well-formed instruction, and the fetch finds it. -/
theorem stepRunsDecodedInstruction : Obligations.StepRunsDecodedInstruction :=
  fun _ w running word => ⟨decode_wf w, step_word running word⟩

/-- Settles O25: the fetch comes first, and its error changes the status alone. -/
theorem fetchOutsideBodyIsError : Obligations.FetchOutsideBodyIsError :=
  fun _ running out => step_out running out

/-- Settles O26: `step` of each status that is not running. -/
theorem endedCoreDoesNotStep : Obligations.EndedCoreDoesNotStep := by
  intro s ended
  cases status : s.status with
  | running => exact absurd status ended
  | done | error e => simp only [step, status]

end Sys2Proof.Proofs

/-! Errors (60_exceptions.md R201, R206, R210): what a raise keeps, and which kinds a step can end with. -/

namespace Sys2Proof.Machine

open Sys2Proof.Safety

theorem raise_keepsCore (e : ErrorKind) (s t : State) : KeepsCore s (raise e s t) :=
  ⟨rfl, rfl, rfl, rfl, rfl, rfl, raise_keepsInputs e s t⟩

section

variable {i : Instr} {s t : State}

/-- A running core that an instruction leaves with a step error has kept its core state (R210). -/
theorem Effect.keepsCore_of_raised (h : Effect i s t) (running : s.status = .running)
    (raised : Raised t) : KeepsCore s t := by
  obtain ⟨e, _, u, -, rfl⟩ | ⟨-, sequenced⟩ | ⟨-, -, hit, annul, imm, rfl⟩ := h.ending
  · exact raise_keepsCore e s u
  · exact absurd raised (sequenced.not_raised running)
  · obtain ⟨e, status, -⟩ := raised
    rw [takeBranch_status, running] at status
    cases status

/-- The code of a step error (R201, D34). -/
theorem code_of_stepError {e : ErrorKind} (h : stepError e = true) : e.code ∈ [1, 2, 3, 4, 6] := by
  cases e with
  | unknownMacro | parameterLeftover | jitBufferExhausted => cases h
  | registerOutOfRange | badDelaySlot | parameterUnderflow | fetchOutOfRange => simp [ErrorKind.code]

/-- An instruction of a running core ends with a step error or PARAMETER_LEFTOVER. -/
theorem Effect.code_of_error (h : Effect i s t) (running : s.status = .running) {e : ErrorKind}
    (status : t.status = .error e) : e.code ∈ [1, 2, 3, 4, 6] := by
  obtain ⟨_, _, _, why, rfl⟩ | ⟨-, sequenced⟩ | ⟨-, -, hit, annul, imm, rfl⟩ := h.ending
  · cases status
    exact code_of_stepError why.kind
  · obtain kept | ⟨done, -⟩ | leftover := sequenced.status_cases
    · cases status.symm.trans (kept.trans running)
    · cases status.symm.trans done
    · cases status.symm.trans leftover
      simp [ErrorKind.code]
  · cases status.symm.trans ((takeBranch_status _ _ _ _).trans running)

end

end Sys2Proof.Machine

namespace Sys2Proof.Proofs

open Sys2Proof.Machine Sys2Proof.Safety

/-- Settles O33: a fetch error and an instruction that raised are both `raise`, which keeps the core. -/
theorem errorsArePrecise : Obligations.ErrorsArePrecise := by
  intro s t next raised
  obtain ⟨running, ⟨w, -, effect⟩ | ⟨-, rfl⟩⟩ := step_effect next
  · exact ⟨effect.keepsCore_of_raised running raised, effect.trace_prefix⟩
  · exact ⟨raise_keepsCore _ s s, List.prefix_rfl⟩

/-- Settles O34: the kinds of an instruction, and FETCH_OUT_OF_RANGE. -/
theorem stepRaisesOnlyCoreKinds : Obligations.StepRaisesOnlyCoreKinds := by
  intro s t e next status
  obtain ⟨running, ⟨w, -, effect⟩ | ⟨-, rfl⟩⟩ := step_effect next
  · exact effect.code_of_error running status
  · cases status
    exact code_of_stepError rfl

/-- Settles O36: of the reasons to raise, only a fetch with no parameter left gives an underflow. -/
theorem underflowOnlyFromFetching : Obligations.UnderflowOnlyFromFetching := by
  intro i s t n running next status
  obtain ⟨_, why⟩ := (effect_of_exec next).why_of_stepError running status rfl
  cases why with
  | underflow rop _ op fetch none => exact ⟨rfl, none, rop, op, fetch⟩

end Sys2Proof.Proofs

/-! What every instruction keeps, and what it may change (10_state.md R21 to R26): registers, carry, cursor
and trace. -/

namespace Sys2Proof.Machine

open Sys2Proof.Safety

/-- A branch touches `pc` and `slot` alone. -/
theorem takeBranch_keeps (hit annul : Bool) (target : Word) (s : State) :
    ∃ pc slot, takeBranch hit annul target s = { s with pc := pc, slot := slot } := by
  cases hit <;> cases annul <;> exact ⟨_, _, rfl⟩

section

variable {i : Instr} {s t : State}

theorem Effect.reg_of_ne_destination (h : Effect i s t) {r : RegIdx} (other : destination i ≠ some r) :
    t.reg r = s.reg r := by
  cases h with
  | raised => rfl
  | completed rop d v _ _ _ _ dst _ _ _ _ _ _ done =>
    have notDst : r ≠ d := fun same => other (same ▸ dst)
    rw [done.delivered.reg, if_neg fun both => notDst both.1]
  | logged _ _ _ _ _ _ done => exact State.reg_congr done.x r
  | branched hit annul imm =>
    obtain ⟨pc, slot, kept⟩ := takeBranch_keeps hit annul (branchTarget s.pc imm) s
    exact State.reg_congr (by rw [kept]) r

theorem Effect.carry_of_not_writesCarry (h : Effect i s t) (keeps : writesCarry i = false) :
    t.carry = s.carry := by
  cases h with
  | raised => rfl
  | completed _ _ _ _ _ _ _ _ _ _ flag _ _ _ done => exact done.carry.trans (flag keeps)
  | logged _ _ _ _ _ _ done => exact done.carry
  | branched hit annul imm =>
    obtain ⟨pc, slot, kept⟩ := takeBranch_keeps hit annul (branchTarget s.pc imm) s
    rw [kept]

theorem Effect.cursor_cases (h : Effect i s t) :
    t.cursor = s.cursor ∨
      (t.cursor = s.cursor + 1 ∧ ∃ rop, resultOpIn s i = some rop ∧ fetches rop = true) := by
  cases h with
  | raised => exact .inl rfl
  | completed rop _ _ _ _ _ _ _ op _ _ _ _ _ done =>
    have cursor := done.delivered.cursor
    split at cursor
    · exact .inr ⟨cursor, rop, op, ‹_›⟩
    · exact .inl cursor
  | logged _ _ _ _ _ _ done => exact .inl done.cursor
  | branched => exact .inl (takeBranch_cursor _ _ _ _)

/-- The events an instruction appends. -/
theorem Effect.trace_append (h : Effect i s t) :
    ∃ new, t.trace = s.trace ++ new ∧ new.length ≤ 2 ∧ (new.filter isCall).length ≤ 1 := by
  obtain ⟨pre, sent, trace, short, quiet, once⟩ := h.events
  refine ⟨pre ++ sent, by rw [trace, List.append_assoc], ?_, ?_⟩
  · rw [List.length_append]
    omega
  · rw [List.filter_append, quiet, List.nil_append]
    exact (List.length_filter_le isCall sent).trans once

end

end Sys2Proof.Machine

namespace Sys2Proof.Proofs

open Sys2Proof.Machine Sys2Proof.Safety

/-- Settles O41: an instruction keeps the inputs, and so does the raise of a fetch error. -/
theorem stepKeepsInputs : Obligations.StepKeepsInputs := by
  intro s t next
  obtain ⟨-, ⟨w, -, effect⟩ | ⟨-, rfl⟩⟩ := step_effect next
  · exact effect.keepsInputs
  · exact raise_keepsInputs _ s s

/-- Settles O42: an instruction appends its diagnostic or read and its send; a fetch error nothing. -/
theorem traceOnlyGrows : Obligations.TraceOnlyGrows := by
  intro s t next
  obtain ⟨-, ⟨w, -, effect⟩ | ⟨-, rfl⟩⟩ := step_effect next
  · exact effect.trace_append
  · exact ⟨[], by simp⟩

/-- Settles O43: by the effects of an instruction. -/
theorem onlyDestinationIsWritten : Obligations.OnlyDestinationIsWritten :=
  fun _ _ _ _ next other => (effect_of_exec next).reg_of_ne_destination other

/-- Settles O44: by the effects of an instruction. -/
theorem carryWrittenOnlyByArithmetic : Obligations.CarryWrittenOnlyByArithmetic :=
  fun _ _ _ next keeps => (effect_of_exec next).carry_of_not_writesCarry keeps

/-- Settles O47: by the effects of an instruction. -/
theorem cursorMovesByFetchesOnly : Obligations.CursorMovesByFetchesOnly :=
  fun _ _ _ next => (effect_of_exec next).cursor_cases

end Sys2Proof.Proofs

/-! The machine invariant (10_state.md R20, R23, R26, R31; 70_reset_and_hazards.md R241): it holds at reset,
and the steps and the host's operations keep it. -/

namespace Sys2Proof.Machine

open Sys2Proof.Safety

/-! ## Word-aligned offsets (10_state.md R23) -/

theorem aligned_add_four {pc : Word} (h : pc.toNat % 4 = 0) : (pc + 4#32).toNat % 4 = 0 := by
  rw [BitVec.toNat_add]
  change (pc.toNat + 4) % 4294967296 % 4 = 0
  omega

theorem aligned_branchTarget {base : Word} (h : base.toNat % 4 = 0) (imm : Imm18) :
    (branchTarget base imm).toNat % 4 = 0 := by
  rw [branchTarget, BitVec.toNat_add, BitVec.toNat_mul]
  change (base.toNat + (sext18 imm).toNat * 4 % 4294967296) % 4294967296 % 4 = 0
  omega

/-- `pc` and a pending target are word-aligned. -/
structure AlignedControl (s : State) : Prop where
  pc : s.pc.toNat % 4 = 0
  target : ∀ target, s.slot = .branchDelay target → target.toNat % 4 = 0

theorem alignedControl_of_sequenced {isExit : Bool} {s t : State} (h : Sequenced isExit s t)
    (aligned : AlignedControl s) : AlignedControl t := by
  cases slot : s.slot with
  | none =>
    obtain ⟨pc, after, -⟩ := h.of_none slot
    exact ⟨pc ▸ aligned_add_four aligned.pc, by rw [after]; cases isExit <;> simp⟩
  | branchDelay target =>
    obtain ⟨pc, after, -⟩ := h.of_branchDelay slot
    exact ⟨pc ▸ aligned.target target slot, by simp [after]⟩
  | exitDelay =>
    obtain ⟨pc, after, -⟩ := h.of_exitDelay slot
    exact ⟨pc ▸ aligned_add_four aligned.pc, by simp [after]⟩

theorem takeBranch_aligned {s : State} (aligned : AlignedControl s) {target : Word}
    (word : target.toNat % 4 = 0) (hit annul : Bool) :
    AlignedControl (takeBranch hit annul target s) := by
  have next := aligned_add_four aligned.pc
  cases hit with
  | false => exact ⟨next, aligned.target⟩
  | true =>
    cases annul with
    | false => exact ⟨next, fun _ pending => by cases pending; exact word⟩
    | true => exact ⟨word, aligned.target⟩

theorem Effect.aligned {i : Instr} {s t : State} (h : Effect i s t) (aligned : AlignedControl s) :
    AlignedControl t := by
  obtain ⟨e, _, u, -, rfl⟩ | ⟨-, sequenced⟩ | ⟨-, -, hit, annul, imm, rfl⟩ := h.ending
  · exact ⟨aligned.pc, aligned.target⟩
  · exact alignedControl_of_sequenced sequenced aligned
  · exact takeBranch_aligned aligned (aligned_branchTarget aligned.pc imm) hit annul

/-! ## The end of a run (40_sequencer.md R108) -/

/-- An instruction of a running core that ends the run DONE has consumed the parameters, in an exit's
slot. -/
theorem Effect.done_consumed {i : Instr} {s t : State} (h : Effect i s t)
    (running : s.status = .running) (done : t.status = .done) :
    t.cursor = s.params.length ∧ t.slot = .exitDelay := by
  obtain ⟨e, _, u, -, rfl⟩ | ⟨-, sequenced⟩ | ⟨-, -, hit, annul, imm, rfl⟩ := h.ending
  · cases done
  · obtain kept | ⟨-, consumed, slot⟩ | leftover := sequenced.status_cases
    · cases done.symm.trans (kept.trans running)
    · exact ⟨consumed, slot⟩
    · cases done.symm.trans leftover
  · cases done.symm.trans ((takeBranch_status _ _ _ _).trans running)

/-! ## The invariant -/

theorem Effect.machineInv {i : Instr} {s t : State} (h : Effect i s t) (running : s.status = .running)
    (inv : MachineInv s) : MachineInv t := by
  have inputs := h.keepsInputs
  have aligned := h.aligned ⟨inv.pc_aligned, inv.target_aligned⟩
  exact {
    zero := inputs.hidden.trans inv.zero
    pc_aligned := aligned.pc
    target_aligned := aligned.target
    cursor_le := inputs.params ▸ h.cursor_le inv.cursor_le
    memory_wf := inputs.memory ▸ inv.memory_wf
    done_consumed := fun done => inputs.params ▸ h.done_consumed running done }

/-- An error changes nothing that the invariant speaks of but the status, which is not DONE. -/
theorem raise_machineInv {s : State} (inv : MachineInv s) (e : ErrorKind) (t : State) :
    MachineInv (raise e s t) :=
  { inv with done_consumed := fun done => by cases done }

theorem reset_machineInv : MachineInv State.reset where
  zero := rfl
  pc_aligned := rfl
  target_aligned := by simp [State.reset]
  cursor_le := Nat.le_refl 1
  memory_wf := Memory.reset_wf
  done_consumed := by simp [State.reset]

theorem start_machineInv {s : State} (wf : s.memory.wf) (body rest answers : List Word) (p : Word) :
    MachineInv (s.start body (p :: rest) answers p) where
  zero := rfl
  pc_aligned := rfl
  target_aligned := by simp [State.start]
  cursor_le := by simp [State.start]
  memory_wf := wf
  done_consumed := by simp [State.start]

theorem invoke_machineInv {s : State} (inv : MachineInv s) (entry : Nat) (params answers : List Word) :
    MachineInv (s.invoke entry params answers) := by
  cases bodies : s.memory.bodies entry with
  | nil =>
    rw [State.invoke_unknown bodies]
    exact { inv with done_consumed := fun done => by cases done }
  | cons first others =>
    cases params with
    | nil =>
      rw [State.invoke_noParams bodies]
      exact { inv with done_consumed := fun done => by cases done }
    | cons p rest =>
      rw [State.invoke_start bodies]
      exact start_machineInv (s := { s with draws := s.draws + 1 }) inv.memory_wf _ rest answers p

end Sys2Proof.Machine

namespace Sys2Proof.Proofs

open Sys2Proof.Machine Sys2Proof.Safety

/-- Settles O37: an instruction keeps each part of the invariant, and so does the raise of a fetch
error. -/
theorem stepKeepsInvariant : Obligations.StepKeepsInvariant := by
  intro s t inv next
  obtain ⟨running, ⟨w, -, effect⟩ | ⟨-, rfl⟩⟩ := step_effect next
  · exact effect.machineInv running inv
  · exact raise_machineInv inv _ s

/-- Settles O38: the fields at reset. -/
theorem resetHasInvariant : Obligations.ResetHasInvariant :=
  reset_machineInv

/-- Settles O39: an append keeps the store canonical, a start sets the rest of the invariant up, and a
callee gives back a canonical store. -/
theorem hostKeepsInvariant : Obligations.HostKeepsInvariant :=
  fun _ inv =>
    ⟨fun id w => { inv with memory_wf := Memory.append_wf inv.memory_wf id w },
      invoke_machineInv inv,
      fun _ nested => { inv with memory_wf := nested.memory_wf }⟩

end Sys2Proof.Proofs

/-! The start of an invocation (70_reset_and_hazards.md R230), its errors, and the return of a callee. -/

namespace Sys2Proof.Machine

/-- The registers at the start: R1 holds the first parameter and the others 0. -/
theorem State.start_reg (s : State) (body params answers : List Word) (p : Word) (i : RegIdx) :
    (s.start body params answers p).reg i = if i = 1#3 then p else 0#32 := by
  have start : s.start body params answers p =
      { s.start body params answers p with x := Vector.replicate 8 0#32 }.setReg 1#3 p := rfl
  rw [start, State.reg_setReg]
  by_cases first : i = 1#3
  · simp [first]
  · simp [first, State.reg]

end Sys2Proof.Machine

namespace Sys2Proof.Proofs

open Sys2Proof.Machine

/-- Settles O49: the invocation is `State.start` on one of the bodies. -/
theorem invokeSetsPreState : Obligations.InvokeSetsPreState := by
  intro s entry p rest answers found
  obtain ⟨first, others, bodies⟩ := List.exists_cons_of_ne_nil found
  have body := State.invoke_body_mem found (List.cons_ne_nil p rest) answers
  refine ⟨_, rfl, body, ?_⟩
  rw [State.invoke_start bodies]
  exact ⟨rfl, rfl, State.start_reg _ _ _ _ p, rfl, rfl, rfl, rfl, rfl, rfl, rfl, rfl, rfl⟩

/-- Settles O50: the lookup fails before the parameters are looked at. -/
theorem invokeErrorsBeforeStart : Obligations.InvokeErrorsBeforeStart := by
  intro s entry params answers
  refine ⟨fun unknown => State.invoke_unknown unknown params answers, fun found => ?_⟩
  obtain ⟨first, others, bodies⟩ := List.exists_cons_of_ne_nil found
  exact State.invoke_noParams bodies answers

/-- Settles O48: each register, and each field, at reset. -/
theorem resetIsInvocationStart : Obligations.ResetIsInvocationStart :=
  ⟨by decide, rfl, rfl, rfl, rfl, rfl, rfl, rfl, rfl⟩

/-- Settles O54: a callee's return replaces the code store and the count of free values, which a fetch
does not read. -/
theorem calleeCannotReachSuspendedInvocation : Obligations.CalleeCannotReachSuspendedInvocation :=
  fun _ _ => ⟨rfl, rfl⟩

end Sys2Proof.Proofs

/-! What instructions cannot tell apart (10_state.md R24, R25; 20_memory.md R44): a relation between states
that differ in the code store, `carry` and `maddr` alone, which every instruction keeps. -/

namespace Sys2Proof.Machine

open Sys2Proof.Safety

/-! ## The relation -/

/-- How two states may differ: one code store is a function of the other, and `carry` and `maddr` are
related by relations that the writes of an instruction and a send keep. -/
structure Hidden where
  memory : Memory → Memory
  carry : Bool → Bool → Prop
  maddr : Word → Word → Prop
  carry_refl : ∀ c, carry c c
  maddr_refl : ∀ m, maddr m m
  address : ∀ {m m'}, maddr m m' → methodAddress m' = methodAddress m
  advance : ∀ {m m'}, maddr m m' → maddr (advanceMethod m) (advanceMethod m')

/-- `s'` is `s` but for a difference that `H` allows. -/
def Similar (H : Hidden) (s s' : State) : Prop :=
  ∃ c m, H.carry s.carry c ∧ H.maddr s.maddr m ∧
    s' = { s with memory := H.memory s.memory, carry := c, maddr := m }

/-- Two results of an operation that may raise: the same error, or similar states. -/
inductive SimilarResult (H : Hidden) : Except ErrorKind State → Except ErrorKind State → Prop where
  | ok {t t' : State} (h : Similar H t t') : SimilarResult H (.ok t) (.ok t')
  | error (e : ErrorKind) : SimilarResult H (.error e) (.error e)

/-- Both outcomes are next states, and they are similar. -/
def SimilarNext (H : Hidden) (o o' : Host.Outcome State Fault Refusal) : Prop :=
  ∃ t t', o = .next t ∧ o' = .next t' ∧ Similar H t t'

section

variable {H : Hidden} {s s' t t' : State}

/-! ## What similar states share -/

theorem Similar.reg (h : Similar H s s') : s'.reg = s.reg := by
  obtain ⟨c, m, -, -, rfl⟩ := h
  rfl

theorem Similar.cfg (h : Similar H s s') : s'.cfg = s.cfg := by
  obtain ⟨c, m, -, -, rfl⟩ := h
  rfl

theorem Similar.pc (h : Similar H s s') : s'.pc = s.pc := by
  obtain ⟨c, m, -, -, rfl⟩ := h
  rfl

theorem Similar.slot (h : Similar H s s') : s'.slot = s.slot := by
  obtain ⟨c, m, -, -, rfl⟩ := h
  rfl

theorem SimilarResult.map {r r' : Except ErrorKind State} (h : SimilarResult H r r')
    {f : State → State} (keeps : ∀ {t t' : State}, Similar H t t' → Similar H (f t) (f t')) :
    SimilarResult H (r.map f) (r'.map f) := by
  cases h with
  | ok k => exact .ok (keeps k)
  | error e => exact .error e

/-! ## The updates of the state -/

theorem Similar.setReg (h : Similar H s s') (i : RegIdx) (v : Word) :
    Similar H (s.setReg i v) (s'.setReg i v) := by
  obtain ⟨c, m, hc, hm, rfl⟩ := h
  exact ⟨c, m, hc, hm, rfl⟩

theorem Similar.setMaddr (h : Similar H s s') (v : Word) :
    Similar H (s.setMaddr v) (s'.setMaddr v) := by
  obtain ⟨c, m, hc, hm, rfl⟩ := h
  exact ⟨c, v, hc, H.maddr_refl v, rfl⟩

theorem Similar.setCarry (h : Similar H s s') (b : Option Bool) :
    Similar H (s.setCarry b) (s'.setCarry b) := by
  obtain ⟨c, m, hc, hm, rfl⟩ := h
  cases b with
  | none => exact ⟨c, m, hc, hm, rfl⟩
  | some b => exact ⟨b, m, H.carry_refl b, hm, rfl⟩

theorem Similar.emit (h : Similar H s s') (e : Event) : Similar H (s.emit e) (s'.emit e) := by
  obtain ⟨c, m, hc, hm, rfl⟩ := h
  exact ⟨c, m, hc, hm, rfl⟩

theorem Similar.send (h : Similar H s s') (v : Word) : Similar H (send v s) (send v s') := by
  obtain ⟨c, m, hc, hm, rfl⟩ := h
  exact ⟨c, advanceMethod m, hc, H.advance hm, by simp only [send_eq, H.address hm]⟩

theorem Similar.retire (h : Similar H s s') (isExit : Bool) :
    Similar H (retire isExit s) (retire isExit s') := by
  obtain ⟨c, m, hc, hm, rfl⟩ := h
  cases slot : s.slot <;> simp only [Machine.retire, slot] <;> exact ⟨c, m, hc, hm, rfl⟩

theorem Similar.raise (h : Similar H s s') (h' : Similar H t t') (e : ErrorKind) :
    Similar H (raise e s t) (raise e s' t') := by
  obtain ⟨c, m, hc, hm, rfl⟩ := h
  obtain ⟨_, _, -, -, rfl⟩ := h'
  exact ⟨c, m, hc, hm, rfl⟩

theorem Similar.takeBranch (h : Similar H s s') (hit annul : Bool) (target : Word) :
    Similar H (takeBranch hit annul target s) (takeBranch hit annul target s') := by
  obtain ⟨c, m, hc, hm, rfl⟩ := h
  cases hit <;> cases annul <;> exact ⟨c, m, hc, hm, rfl⟩

/-! ## Result operations -/

/-- What follows a fetch of a parameter keeps the relation if it does for each parameter. -/
theorem nextParam_similar (h : Similar H s s') (f : Word → State → State)
    (keeps : ∀ p {t t' : State}, Similar H t t' → Similar H (f p t) (f p t')) :
    SimilarResult H ((nextParam s).map fun q => f q.1 q.2) ((nextParam s').map fun q => f q.1 q.2) := by
  obtain ⟨c, m, hc, hm, rfl⟩ := h
  unfold nextParam
  cases s.params[s.cursor]? with
  | none => exact .error _
  | some p => exact .ok (keeps p ⟨c, m, hc, hm, rfl⟩)

theorem applyResult_similar (h : Similar H s s') (rop : ResultOp) (d : RegIdx) (v : Word) :
    SimilarResult H (applyResult rop d v s) (applyResult rop d v s') := by
  cases rop with
  | ignoreFetch => exact nextParam_similar h (fun p t => t.setReg d p) fun p _ _ k => k.setReg d p
  | move => exact .ok (h.setReg d v)
  | moveSetMethod => exact .ok ((h.setReg d v).setMaddr v)
  | fetchSend =>
    exact nextParam_similar h (fun p t => send v (t.setReg d p)) fun p _ _ k => (k.setReg d p).send v
  | moveSend => exact .ok ((h.setReg d v).send v)
  | fetchSetMethod =>
    exact nextParam_similar h (fun p t => (t.setReg d p).setMaddr v)
      fun p _ _ k => (k.setReg d p).setMaddr v
  | moveSetMethodFetchSend =>
    exact nextParam_similar h (fun p t => send p ((t.setReg d v).setMaddr v))
      fun p _ _ k => ((k.setReg d v).setMaddr v).send p
  | moveSetMethodSend => exact .ok (((h.setReg d v).setMaddr v).send _)

/-! ## The end of an instruction -/

theorem conclude_similar {r r' : Except ErrorKind State} (h : Similar H s s') (h' : Similar H t t')
    (results : SimilarResult H r r') (isExit : Bool) :
    SimilarNext H (conclude isExit s t r) (conclude isExit s' t' r') := by
  cases results with
  | ok k => exact ⟨_, _, rfl, rfl, k.retire isExit⟩
  | error e => exact ⟨_, _, rfl, rfl, h.raise h' e⟩

theorem produce_similar (h : Similar H s s') (h' : Similar H t t') (rop : ResultOp) (isExit : Bool)
    (d : RegIdx) (v : Word) (c : Option Bool) :
    SimilarNext H (produce rop isExit d v c s t) (produce rop isExit d v c s' t') :=
  conclude_similar h h' ((applyResult_similar h' rop d v).map fun k => k.setCarry c) isExit

/-! ## The instructions, by their shared operations -/

theorem log_similar (h : Similar H s s') (isExit : Bool) (e : Event) :
    SimilarNext H (conclude isExit s (s.emit e) (.ok (s.emit e)))
      (conclude isExit s' (s'.emit e) (.ok (s'.emit e))) :=
  conclude_similar h (h.emit e) (.ok (h.emit e)) isExit

theorem aluUnknown_similar (h : Similar H s s') (rop : ResultOp) (isExit : Bool) (d : RegIdx)
    (w : Word) : SimilarNext H (aluUnknown rop isExit d w s) (aluUnknown rop isExit d w s') := by
  unfold aluUnknown
  rw [h.cfg, h.pc]
  cases s.cfg.unknownAlu with
  | nop => exact log_similar h isExit _
  | resultZero => exact produce_similar h (h.emit _) rop isExit d _ _

theorem shiftValue_similar (h : Similar H s s') (amount : Word) (value : Nat → Word) :
    (shiftValue amount value s').1 = (shiftValue amount value s).1 ∧
      Similar H (shiftValue amount value s).2 (shiftValue amount value s').2 := by
  obtain ⟨c, m, hc, hm, rfl⟩ := h
  unfold shiftValue
  split
  · exact ⟨rfl, c, m, hc, hm, rfl⟩
  · cases s.cfg.largeShift <;> exact ⟨rfl, c, m, hc, hm, rfl⟩

theorem bankAnswer_similar (h : Similar H s s') :
    (bankAnswer s').1 = (bankAnswer s).1 ∧ Similar H (bankAnswer s).2 (bankAnswer s').2 := by
  obtain ⟨c, m, hc, hm, rfl⟩ := h
  rw [bankAnswer_eq, bankAnswer_eq]
  exact ⟨rfl, c, m, hc, hm, rfl⟩

theorem branch_similar (h : Similar H s s') (nonzero annul : Bool) (a : RegIdx) (imm : Imm18) :
    SimilarNext H (branch nonzero annul a imm s) (branch nonzero annul a imm s') := by
  unfold branch
  rw [h.slot, h.pc, h.reg]
  cases s.slot with
  | none => exact ⟨_, _, rfl, rfl, h.takeBranch _ annul _⟩
  | branchDelay _ | exitDelay => exact ⟨_, _, rfl, rfl, h.raise h _⟩

theorem execRead_similar (h : Similar H s s') (rop : ResultOp) (x : Bool) (d a : RegIdx)
    (imm : Imm18) : SimilarNext H (execRead rop x d a imm s) (execRead rop x d a imm s') := by
  obtain ⟨sameAnswer, answered⟩ := bankAnswer_similar h
  unfold execRead
  rw [h.reg]
  by_cases inRange : (s.reg a + sext18 imm).toNat < s.cfg.numGpuRegs
  · simp only [bankRead_ok inRange, bankRead_ok (h.cfg ▸ inRange), sameAnswer]
    exact produce_similar h (answered.emit _) rop x d _ _
  · have out := Nat.not_lt.mp inRange
    simp only [bankRead_out out, bankRead_out (h.cfg ▸ out)]
    exact conclude_similar h h (.error _) x

end

/-- Every instruction takes similar states to similar states, if one that reads `carry` finds it equal. -/
theorem exec_similar {H : Hidden} {s s' : State} (h : Similar H s s') (i : Instr)
    (reads : readsCarry i = true → s'.carry = s.carry) : SimilarNext H (exec i s) (exec i s') := by
  cases i with
  | add rop x d a b | sub rop x d a b | xor rop x d a b | or rop x d a b | and rop x d a b
  | andnot rop x d a b | nand rop x d a b | addi rop x d a imm | extins rop x d a b sb sz db =>
    simp only [exec, execAdd, execSub, execXor, execOr, execAnd, execAndnot, execNand, execAddi,
      execExtins, h.reg, h.cfg]
    exact produce_similar h h rop x d _ _
  | adc rop x d a b | sbb rop x d a b =>
    simp only [exec, execAdc, execSbb, h.reg, h.cfg, reads rfl]
    exact produce_similar h h rop x d _ _
  | aluReserved47 rop x d w | aluUnrecognised13 rop x d w | aluUnrecognised1415 rop x d w
  | aluUnrecognised1631 rop x d w => exact aluUnknown_similar h rop x d w
  | extshli rop x d a b sz db =>
    obtain ⟨sameValue, shifted⟩ := shiftValue_similar h (s.reg a)
      (fun n => extractShift (s.reg b) n sz db.toNat)
    simp only [exec, execExtshli, h.reg, sameValue]
    exact produce_similar h shifted rop x d _ _
  | extshlr rop x d a b sb sz =>
    obtain ⟨sameValue, shifted⟩ := shiftValue_similar h (s.reg a)
      (fun n => extractShift (s.reg b) sb.toNat sz n)
    simp only [exec, execExtshlr, h.reg, sameValue]
    exact produce_similar h shifted rop x d _ _
  | read rop x d a imm => exact execRead_similar h rop x d a imm
  | rsvd x w =>
    simp only [exec, execRsvd, h.pc]
    exact log_similar h x _
  | bz annul a imm => exact branch_similar h false annul a imm
  | bnz annul a imm => exact branch_similar h true annul a imm

/-- The same, for a next state that is known. -/
theorem next_similar {H : Hidden} {i : Instr} {s s' t : State} (next : exec i s = .next t)
    (h : Similar H s s') (reads : readsCarry i = true → s'.carry = s.carry) :
    ∃ t', exec i s' = .next t' ∧ Similar H t t' := by
  obtain ⟨u, t', eq, eq', similar⟩ := exec_similar h i reads
  cases eq.symm.trans next
  exact ⟨t', eq', similar⟩

/-! ## Three ways to differ -/

/-- In `carry` alone (10_state.md R24). -/
def Hidden.inCarry : Hidden where
  memory := id
  carry _ _ := True
  maddr := Eq
  carry_refl _ := trivial
  maddr_refl _ := rfl
  address := fun same => same ▸ rfl
  advance := fun same => same ▸ rfl

/-- In the code store alone, by one more word (20_memory.md R44). -/
def Hidden.inStore (id : Nat) (w : Word) : Hidden where
  memory m := m.append id w
  carry := Eq
  maddr := Eq
  carry_refl _ := rfl
  maddr_refl _ := rfl
  address := fun same => same ▸ rfl
  advance := fun same => same ▸ rfl

section

variable {m m' : Word} (low : m'.extractLsb' 0 18 = m.extractLsb' 0 18)

include low

theorem getLsbD_of_low {i : Nat} (hi : i < 18) : m'.getLsbD i = m.getLsbD i := by
  simpa [hi] using congrArg (·.getLsbD i) low

theorem methodAddress_of_low : methodAddress m' = methodAddress m := by
  refine BitVec.eq_of_getLsbD_eq fun i hi => ?_
  simp [methodAddress, hi, getLsbD_of_low low (i := i) (by omega)]

theorem methodIncrement_of_low : methodIncrement m' = methodIncrement m := by
  refine BitVec.eq_of_getLsbD_eq fun i hi => ?_
  simp [methodIncrement, hi, getLsbD_of_low low (i := 12 + i) (by omega)]

/-- A send reads and writes within bits 17:0. -/
theorem advanceMethod_of_low :
    (advanceMethod m').extractLsb' 0 18 = (advanceMethod m).extractLsb' 0 18 := by
  refine BitVec.eq_of_getLsbD_eq fun i hi => ?_
  simp only [BitVec.getLsbD_extractLsb', hi, Nat.zero_add, getLsbD_advanceMethod,
    methodAddress_of_low low, methodIncrement_of_low low, getLsbD_of_low low hi]

end

/-- In `maddr[31:18]` alone (10_state.md R25). -/
def Hidden.inUpperMethod : Hidden where
  memory := id
  carry := Eq
  maddr m m' := m'.extractLsb' 0 18 = m.extractLsb' 0 18
  carry_refl _ := rfl
  maddr_refl _ := rfl
  address := methodAddress_of_low
  advance := advanceMethod_of_low

/-- A fetch does not read the code store, so a step of a running core is similar too. -/
theorem step_install {s : State} (running : s.status = .running) (id : Nat) (w : Word) :
    SimilarNext (.inStore id w) (step s) (step (s.install id w)) := by
  have similar : Similar (.inStore id w) s (s.install id w) := ⟨s.carry, s.maddr, rfl, rfl, rfl⟩
  have fetched : fetch (s.install id w) = fetch s := rfl
  simp only [step, State.install_status, running, fetched]
  cases fetch s with
  | ok word => exact exec_similar similar (decode word) fun _ => rfl
  | error e => exact ⟨_, _, rfl, rfl, similar.raise similar e⟩

end Sys2Proof.Machine

namespace Sys2Proof.Proofs

open Sys2Proof.Machine

/-- Settles O45: states that differ in `carry` alone lead to such states, for an instruction that does
not read it. -/
theorem carryReadOnlyByAdcSbb : Obligations.CarryReadOnlyByAdcSbb := by
  intro i s t c noRead next
  have similar : Similar .inCarry s { s with carry := c } := ⟨c, s.maddr, trivial, rfl, rfl⟩
  obtain ⟨_, next', c', m, -, rfl, rfl⟩ := next_similar next similar
    fun reads => by cases noRead.symm.trans reads
  exact ⟨c', next'⟩

/-- Settles O46: states that differ in `maddr[31:18]` alone lead to such states. -/
theorem upperMethodBitsAreNeverRead : Obligations.UpperMethodBitsAreNeverRead := by
  intro i s t m low next
  have similar : Similar .inUpperMethod s { s with maddr := m } := ⟨s.carry, m, rfl, low, rfl⟩
  obtain ⟨_, next', c, m', rfl, low', rfl⟩ := next_similar next similar fun _ => rfl
  exact ⟨m', low', next'⟩

/-- Settles O53: a step of a running core takes states that differ by the install to such states; a core
that has ended faults with or without it. -/
theorem installDoesNotReachRunningInvocation : Obligations.InstallDoesNotReachRunningInvocation := by
  intro s id w
  cases status : s.status with
  | running =>
    obtain ⟨t, _, next, next', c, m, rfl, rfl, rfl⟩ := step_install status id w
    rw [next, next']
    rfl
  | done | error e => simp only [step, State.install_status, status]

end Sys2Proof.Proofs
